-- ==== Sys2Proof/Word.lean ====
section
/-! DEFINITION. The widths of the V5 codec block (rules R9, R10): bytes, 16-bit values, the 32-bit words of a host
access, the 12-bit offsets of the register window, the 9-bit BUF_LEN field and the 48-bit listing transaction. -/

namespace Sys2Proof

/-- A byte of a frame, of REQ or of BUF. -/
abbrev Byte := BitVec 8

/-- A 16-bit value: a CRC, a register address or count, a register value (R9). -/
abbrev Half := BitVec 16

/-- A 32-bit word: what one host access carries (R41), and a command word (R60). -/
abbrev Word := BitVec 32

/-- A byte offset in the 4 KiB register window (R10, R40). -/
abbrev Offset := BitVec 12

/-- The 48-bit transaction of a program listing (R66). -/
abbrev Transaction := BitVec 48

end Sys2Proof
end

