-- ==== Sys2Proof/Config.lean ====
section
/-! DEFINITION. The constants of rule R7 and the block's two parameters, which the spec leaves open (R8, R53; D10, D27). -/

namespace Sys2Proof.Config

/-- CRC_INIT (R7, R69). -/
def crcInit : Half := 0xFFFF#16

/-- CRC_POLY, applied LSB-first (R7, R68). -/
def crcPoly : Half := 0xA001#16

/-- V5_START: frame byte 0 (R7, R75). -/
def v5Start : Byte := 0xA5#8

/-- V5_END: frame byte 35 (R7, R75). -/
def v5End : Byte := 0x15#8

/-- V5_LENGTH_FIELD: frame bytes 1-2, little-endian (R7, R82). -/
def v5LengthField : Half := 0x0017#16

/-- V5_CONTROL, first byte: frame byte 3 (R7, R75). -/
def v5Control0 : Byte := 0x10#8

/-- V5_CONTROL, second byte: frame byte 4 (R7, R75). -/
def v5Control1 : Byte := 0x45#8

/-- V5_SUBFRAME_INVERTER: frame byte 11 (R7, R75). -/
def v5SubframeInverter : Byte := 0x02#8

/-- MB_FC_READ_HOLDING: frame byte 27, and the function code DECODE looks for (R7, R75, R89). -/
def mbReadHolding : Byte := 0x03#8

/-- SEQ_SEED (R7, R24). -/
def seqSeed : Byte := 0x45#8

/-- SLAVE_ID_DEFAULT (R7, R21). -/
def slaveIdDefault : Byte := 0x01#8

/-- BUF_MAX: the bytes BUF holds (R7, R34). -/
def bufMax : Nat := 300

/-- DEC_MIN_LEN: the shortest input DECODE scans (R7, R87). -/
def decMinLen : Nat := 15

/-- DEC_SCAN_HI is len - 8: the 8 (R7, R88). -/
def decScanTail : Nat := 8

/-- DEC_SCAN_LO: the last offset scanned (R7, R88). -/
def decScanLo : Nat := 5

/-- DEC_BYTE_COUNT: the declared data-byte count DECODE accepts (R7, R89). -/
def decByteCount : Byte := 2#8

/-- P_CRC_MISMATCH_DISTINCT (R8, D10): whether a scan in which some candidate failed its CRC test reports
CHECKSUM_MISMATCH instead of NOT_FOUND. DESIGN CHOICE (log entry 6): an uninterpreted constant; a claim holds for
both of its values. Safe. -/
opaque crcMismatchDistinct : Bool

/-- The number of the 4 KiB page of the host's address map that holds the window: P_WINDOW_BASE / 4096 (R53, D27).
DESIGN CHOICE (log entry 7): uninterpreted, and read by no rule of the block. Safe. -/
opaque windowPage : Nat

/-- P_WINDOW_BASE, 4 KiB aligned (D27). -/
def windowBase : Nat := 4096 * windowPage

/-- Where a window offset lies in the host's address map (R53: every offset of the spec is relative to the base). -/
def hostAddress (off : Offset) : Nat := windowBase + off.toNat

end Sys2Proof.Config
end

