-- ==== Sys2Proof/Machine/Event.lean ====
section
/-! DEFINITION. What the one agent outside the block can do to it (R19, R41, R104, R107): the host's reads and
writes of the register window, and the reset input. -/

namespace Sys2Proof.Machine

/-- One event from outside the block. The interface carries 32-bit aligned accesses only (R41, R42); an event of
another size or at a misaligned offset can be written down here so that the model can say it refuses it (I3). -/
inductive HostEvent where
  /-- MemRead(off, size), size in bytes (R41). -/
  | read (off : Offset) (size : Nat)
  /-- MemWrite(off, size, v), size in bytes (R41). -/
  | write (off : Offset) (size : Nat) (v : Word)
  /-- The reset input is asserted (R107). -/
  | reset
  deriving DecidableEq, Repr

/-- `off[1:0]` is 0b00 (R42). -/
def aligned (off : Offset) : Bool := off.extractLsb' 0 2 == 0#2

end Sys2Proof.Machine
end

