-- ==== Sys2Proof/Syntax.lean ====
section
/-! DEFINITION. The four commands of spec/opcode_table.json (R61). Commands have no immediate fields and no
register-number fields: every operand is implicit (R64). -/

namespace Sys2Proof

/-- One constructor per row of spec/opcode_table.json. -/
inductive Instr where
  /-- CRC16, OP 0x01: the Modbus CRC16 of BUF[0, BUF_LEN) into CRC_RESULT (R71). -/
  | crc16
  /-- V5SUM, OP 0x02: the V5 checksum of BUF[0, BUF_LEN) into SUM_RESULT (R73). -/
  | v5sum
  /-- ENCODE, OP 0x03: the 36-byte V5 request frame into REQ, SEQ advanced (R77). -/
  | encode
  /-- DECODE, OP 0x04: the backward scan of BUF[0, BUF_LEN) for a Modbus read reply into RESULT (R86). -/
  | decode
  deriving DecidableEq, Repr

end Sys2Proof
end

