-- ==== Sys2Proof/WellFormed.lean ====
section
/-! DEFINITION. Which commands, command words, host accesses and host-program operands the spec admits. -/

namespace Sys2Proof

/-- A command has no field that could be out of range (R64), so each is well formed. -/
def Instr.WellFormed : Instr → Bool
  | .crc16 => true
  | .v5sum => true
  | .encode => true
  | .decode => true

/-- RSVD, bits [31:8] of a command word, must be 0 (R60). -/
def reservedClear (v : Word) : Bool := v.extractLsb' 8 24 == 0#24

/-- OP, bits [7:0], is one of 0x01 to 0x04 (R61, R63). -/
def opcodeDefined (v : Word) : Bool :=
  decide (1 ≤ (v.extractLsb' 0 8).toNat) && decide ((v.extractLsb' 0 8).toNat ≤ 4)

/-- A command word the block runs (R60, R62, R63). -/
def commandWordOk (v : Word) : Bool := reservedClear v && opcodeDefined v

/-- A host event the interface can carry: 32 bits wide (R41) and aligned (R42); the reset input always. -/
def Machine.HostEvent.WellFormed : Machine.HostEvent → Bool
  | .read off size => size == 4 && Machine.aligned off
  | .write off size _ => size == 4 && Machine.aligned off
  | .reset => true

/-- `loadbuf b0 … b(n-1)` takes at most 300 bytes (R67). -/
def loadbufOk (bytes : List Byte) : Bool := decide (bytes.length ≤ Config.bufMax)

end Sys2Proof
end

