-- ==== Sys2Proof/Decode.lean ====
section
/-! DEFINITION. The command decoder and encoder (R60, R61), and the 48-bit transactions in which a program listing
writes the host's accesses (R66). -/

namespace Sys2Proof

/-- Why a command word names no command. Both give STATUS.CODE ILLEGAL_CMD and nothing else. -/
inductive DecodeError where
  /-- A bit of RSVD, [31:8], is set (R62). -/
  | reservedBitsSet
  /-- OP is 0x00 or 0x05 to 0xFF (R63). -/
  | unknownOpcode
  deriving DecidableEq, Repr

/-- OP, bits [7:0] of a command word (R60). -/
def opField (v : Word) : Byte := v.extractLsb' 0 8

/-- RSVD, bits [31:8] of a command word (R60). -/
def rsvdField (v : Word) : BitVec 24 := v.extractLsb' 8 24

/-- The opcode map (R61). -/
def decodeOp (op : Byte) : Except DecodeError Instr :=
  if op = 0x01#8 then .ok .crc16
  else if op = 0x02#8 then .ok .v5sum
  else if op = 0x03#8 then .ok .encode
  else if op = 0x04#8 then .ok .decode
  else .error .unknownOpcode

/-- The command a word written to CMD runs; RSVD is looked at before OP (R60, R98). -/
def decodeCommand (v : Word) : Except DecodeError Instr :=
  if rsvdField v = 0#24 then decodeOp (opField v) else .error .reservedBitsSet

/-- The opcode of a command (R61). -/
def opcodeOf : Instr → Byte
  | .crc16 => 0x01#8
  | .v5sum => 0x02#8
  | .encode => 0x03#8
  | .decode => 0x04#8

/-- The command word of a command: OP in [7:0], RSVD zero (R60, R61). -/
def encodeCommand (i : Instr) : Word := 0#24 ++ opcodeOf i

/-- The command read from bits numbered as spec/opcode_table.json numbers them: one 32-bit word, bit 0 the least
significant; the bits above `nbits` are 0. A number with a bit above the command word's 32 is no command word. -/
def decodeTableWord (nbits w : Nat) : Option Instr :=
  if w % 2 ^ nbits < 2 ^ 32 then
    match decodeCommand (BitVec.ofNat 32 (w % 2 ^ nbits)) with
    | .ok i => some i
    | .error _ => none
  else none

/-- A host access as the transaction `T = {W[47], 000[46:44], OFF[43:32], DATA[31:0]}` of a listing (R66). The reset
input is no access, and an access that is not 32 bits wide has no transaction. -/
def encodeTransaction : Machine.HostEvent → Option Transaction
  | .read off size => if size = 4 then some (0#1 ++ 0#3 ++ off ++ 0#32) else none
  | .write off size v => if size = 4 then some (1#1 ++ 0#3 ++ off ++ v) else none
  | .reset => none

/-- The host access a listing's transaction stands for; DATA is 0 for `rd`, and bits [46:44] are 0 (R66). -/
def decodeTransaction (t : Transaction) : Option Machine.HostEvent :=
  if t.extractLsb' 44 3 = 0#3 then
    if t.extractLsb' 47 1 = 1#1 then
      some (.write (t.extractLsb' 32 12) 4 (t.extractLsb' 0 32))
    else if t.extractLsb' 0 32 = 0#32 then some (.read (t.extractLsb' 32 12) 4)
    else none
  else none

end Sys2Proof
end

