-- ==== Sys2Proof/Machine/State.lean ====
section
/-! DEFINITION. The block's state (R20), plain data; the reasons a step can stop; and the state after reset (R37,
R107). -/

namespace Sys2Proof.Machine

/-- STATUS.CODE: the outcome of the last command (R96). The codes 0x8-0xF are reserved and no rule produces them; a
model must not construct them (I7), so they are not here (log entry 9). -/
inductive StatusCode where
  /-- 0x0: the command completed. -/
  | ok
  /-- 0x1: DECODE with BUF_LEN < 15 (R87). -/
  | malformedFrame
  /-- 0x2: DECODE under P_CRC_MISMATCH_DISTINCT, some candidate failed its CRC and none matched (R94). -/
  | checksumMismatch
  /-- 0x3: the scan ended with no CRC-valid reply (R94). -/
  | notFound
  /-- 0x4: CRC16, V5SUM or DECODE with BUF_LEN > 300 (R71, R73, R87). -/
  | lenError
  /-- 0x5: ENCODE with SERIAL_VALID = 0 (R79). -/
  | configUnset
  /-- 0x6: an illegal command word (R62, R63). -/
  | illegalCmd
  /-- 0x7, NONE: no command since reset (R28). -/
  | noCommand
  deriving DecidableEq, Repr

/-- Why a run stops with a fault. -/
inductive Fault where
  /-- `Fault(UnwrittenRead)` (R35, R99, I1). Raised by CRC16, V5SUM and DECODE when a byte of BUF[0, BUF_LEN) has not
  been written since reset (R71, R73, R86), and by a host read of a BUF word holding such a byte (R46). The hardware
  goes on with an unspecified byte; stopping is safe. No register read raises it (log entry 5). -/
  | unwrittenRead
  deriving DecidableEq, Repr

/-- Why the model has no step for what it was given. -/
inductive Refusal where
  /-- A command `exec` has no meaning for; raised by no arm of this model. Safe. -/
  | notModelled (mnemonic : String)
  /-- A host access with `off[1:0]` other than 0b00: "refuses it (no meaning, no step)" (R42). The interface cannot
  express it, so refusing is safe. -/
  | misalignedAccess
  /-- A host access that is not 4 bytes wide: "not a transaction of the interface" (R41, I3). Safe. -/
  | notWordAccess
  deriving DecidableEq, Repr

/-- The complete state of the block (R20), and, last, the host's side of it. -/
structure State where
  /-- SLAVE_ID (R21). -/
  slaveId : Byte
  /-- SERIAL (R22). -/
  serial : Word
  /-- SERIAL_VALID: SERIAL written since reset (R23). -/
  serialValid : Bool
  /-- SEQ, the sequence counter (R24). -/
  seq : Byte
  /-- REQ_ADDR (R25). -/
  reqAddr : Half
  /-- REQ_COUNT (R26). -/
  reqCount : Half
  /-- BUF_LEN (R29). -/
  bufLen : BitVec 9
  /-- STATUS.CODE (R28, R96). -/
  statusCode : StatusCode
  /-- RESULT.VALUE (R30). -/
  resultValue : Half
  /-- RESULT.SIGNED_HINT (R30). -/
  resultSigned : Bool
  /-- CRC_RESULT (R31). -/
  crcResult : Half
  /-- SUM_RESULT (R32). -/
  sumResult : Byte
  /-- REQ[0..35] (R33). -/
  req : Vector Byte 36
  /-- BUF[0..299] and WRITTEN[0..299] (R34, R35): the cell `(j, b)` says WRITTEN[j] = 1 and BUF[j] = b; an index with
  no cell has WRITTEN = 0 and no value. Indices strictly rising. -/
  buf : List Host.Cell
  /-- The model's own: what the host's last read returned. -/
  readData : Option Word
  /-- The model's own: the host's events to come, oldest first. -/
  pending : List HostEvent
  deriving DecidableEq, Repr

/-- The block right after reset (R37, R107). SERIAL's reset value is unspecified: DESIGN CHOICE 0 (log entry 3;
unsafe: a host read of SERIAL before its first write returns it, log entry 5). `readData` and `pending` are the
model's own fields: DESIGN CHOICE none and empty (log entries 1 and 2). -/
def State.reset : State where
  slaveId := Config.slaveIdDefault
  serial := 0#32
  serialValid := false
  seq := Config.seqSeed
  reqAddr := 0x0000#16
  reqCount := 0x0001#16
  bufLen := 0#9
  statusCode := .noCommand
  resultValue := 0x0000#16
  resultSigned := false
  crcResult := 0x0000#16
  sumResult := 0x00#8
  req := Vector.replicate 36 0x00#8
  buf := []
  readData := none
  pending := []

end Sys2Proof.Machine
end

