-- ==== Sys2Proof/Machine/Ops.lean ====
section
/-! DEFINITION. The named operations over bits, BUF and registers: bytes of words, the byte memory behind BUF and
WRITTEN, `raise Status`, `raise Fault`, and the reset input. -/

namespace Sys2Proof.Machine

/-- What a command or a host event answers. -/
abbrev Answer := Host.Outcome State Fault Refusal

/-- Bits [8k+7:8k] of a value. -/
def byteOf {n : Nat} (v : BitVec n) (k : Nat) : Byte := v.extractLsb' (8 * k) 8

/-- `{hi8, lo8}` (R11). -/
def packHalf (hi lo : Byte) : Half := hi ++ lo

/-- Little-endian packing: the byte at the lowest offset in bits [7:0] (R44). -/
def packWord (b0 b1 b2 b3 : Byte) : Word := b3 ++ b2 ++ b1 ++ b0

/-! ### Byte memory: strictly rising addresses, an unlisted address has no value -/

/-- The byte at an address, or none where nothing has been written. -/
def Memory.lookup : List Host.Cell → Nat → Option Byte
  | [], _ => none
  | (k, b) :: rest, a => if a = k then some b else Memory.lookup rest a

/-- Write one byte, keeping the addresses strictly rising. -/
def Memory.insert : List Host.Cell → Nat → Byte → List Host.Cell
  | [], a, v => [(a, v)]
  | (k, b) :: rest, a, v =>
    if a < k then (a, v) :: (k, b) :: rest
    else if a = k then (a, v) :: rest
    else (k, b) :: Memory.insert rest a v

/-- Every address of the list is at least `lo` and less than `hi`, and they rise strictly. -/
def Memory.wfFrom (hi : Nat) : Nat → List Host.Cell → Bool
  | _, [] => true
  | lo, (k, _) :: rest => decide (lo ≤ k) && decide (k < hi) && Memory.wfFrom hi (k + 1) rest

/-- The canonical form of BUF: indices strictly rising, all below 300 (R34). An unlisted index has no value, so no
cell can equal what an unlisted index reads as. -/
def Memory.wf (m : List Host.Cell) : Bool := Memory.wfFrom Config.bufMax 0 m

/-- The `n` bytes from `start` on, or none if one of them has not been written. -/
def Memory.readRange (m : List Host.Cell) (start : Nat) : Nat → Option (List Byte)
  | 0 => some []
  | n + 1 =>
    match Memory.lookup m start, Memory.readRange m (start + 1) n with
    | some b, some bs => some (b :: bs)
    | _, _ => none

/-- BUF[j], where it has been written (R13, R34). -/
def State.bufByte (s : State) (j : Nat) : Option Byte := Memory.lookup s.buf j

/-- WRITTEN[j] (R35). -/
def State.written (s : State) (j : Nat) : Bool := (s.bufByte j).isSome

/-- BUF[0, n), or none if some WRITTEN[j] with j < n is 0 (R35). -/
def State.bufBytes (s : State) (n : Nat) : Option (List Byte) := Memory.readRange s.buf 0 n

/-- Word k of the BUF window, or none if it holds an unwritten byte (R46, R48). -/
def State.bufWord (s : State) (k : Nat) : Option Word :=
  match s.bufByte (4 * k), s.bufByte (4 * k + 1), s.bufByte (4 * k + 2), s.bufByte (4 * k + 3) with
  | some b0, some b1, some b2, some b3 => some (packWord b0 b1 b2 b3)
  | _, _, _, _ => none

/-- A host write of word k of the BUF window: all four bytes, and their WRITTEN bits (R46, R48). -/
def State.writeBufWord (s : State) (k : Nat) (v : Word) : State :=
  { s with
    buf :=
      Memory.insert (Memory.insert (Memory.insert (Memory.insert s.buf (4 * k) (byteOf v 0))
        (4 * k + 1) (byteOf v 1)) (4 * k + 2) (byteOf v 2)) (4 * k + 3) (byteOf v 3) }

/-- REQ[j]; an index of 36 or more is no byte of REQ and no rule reads one (R33). -/
def State.reqByte (s : State) (j : Nat) : Byte := s.req.toList.getD j 0x00#8

/-- Word k of the REQ window (R47). -/
def State.reqWord (s : State) (k : Nat) : Word :=
  packWord (s.reqByte (4 * k)) (s.reqByte (4 * k + 1)) (s.reqByte (4 * k + 2)) (s.reqByte (4 * k + 3))

/-! ### Ending a command, and reset -/

/-- STATUS.CODE <- c (R97). -/
def State.setStatus (s : State) (c : StatusCode) : State := { s with statusCode := c }

/-- `raise Status(CODE)`: the command ends, STATUS.CODE is written, nothing else changes (R13). This is all the block
has in place of an exception: it takes no trap and saves no state (R100). -/
def raiseStatus (s : State) (c : StatusCode) : Answer := .next (s.setStatus c)

/-- `raise Fault(UnwrittenRead)`: the model's own stop, on unwritten bytes of BUF (R13, R35, R99). -/
def raiseUnwrittenRead : Answer := .fault .unwrittenRead

/-- The reset input is asserted (R107): every register at its reset value, every WRITTEN bit cleared. The host's side,
what its last read returned and what it will do next, is not the block's and stays. DESIGN CHOICE (log entry 11):
SERIAL, unspecified after reset, takes the value `State.reset` names. Unsafe: a read of SERIAL returns it. -/
def State.applyReset (s : State) : State :=
  { State.reset with readData := s.readData, pending := s.pending }

end Sys2Proof.Machine
end

