-- ==== Sys2Proof/Machine/Flags.lean ====
section
/-! DEFINITION. The block's only flags (R36): STATUS.CODE, STATUS.SERIAL_VALID and RESULT.SIGNED_HINT, and the words
in which the host sees them. -/

namespace Sys2Proof.Machine

/-- The 4-bit code of a status (R96). -/
def StatusCode.code : StatusCode → BitVec 4
  | .ok => 0x0#4
  | .malformedFrame => 0x1#4
  | .checksumMismatch => 0x2#4
  | .notFound => 0x3#4
  | .lenError => 0x4#4
  | .configUnset => 0x5#4
  | .illegalCmd => 0x6#4
  | .noCommand => 0x7#4

/-- The STATUS word: `zext_32({SERIAL_VALID, 0b0000, STATUS_CODE})` (R28, R46). -/
def State.statusWord (s : State) : Word :=
  (BitVec.ofBool s.serialValid ++ 0#4 ++ s.statusCode.code).setWidth 32

/-- The RESULT word: `zext_32({RESULT_SIGNED, RESULT_VALUE})` (R30, R46). -/
def State.resultWord (s : State) : Word :=
  (BitVec.ofBool s.resultSigned ++ s.resultValue).setWidth 32

/-- SIGNED_HINT: bit 7 of the first data byte of the reply, which is bit 15 of VALUE (R92). -/
def signHint (hi : Byte) : Bool := hi.getLsbD 7

end Sys2Proof.Machine
end

