-- ==== Sys2Proof/Machine/Operands.lean ====
section
/-! DEFINITION. The one operand form of the block (R64): the bytes BUF[0, BUF_LEN), with the checks that come before
they are read, in the order of R98. CRC16, V5SUM and DECODE take it; ENCODE's operands are plain register fields. -/

namespace Sys2Proof.Machine

/-- Run `k` on BUF[0, BUF_LEN): LEN_ERROR for BUF_LEN > 300, then MALFORMED_FRAME for BUF_LEN < minLen, then the
model's UnwrittenRead check over the whole range, then `k` (R71, R73, R86, R98). CRC16 and V5SUM accept every length
up to 300, so their minLen is 0. -/
def withBuffer (minLen : Nat) (s : State) (k : List Byte → State) : Answer :=
  if Config.bufMax < s.bufLen.toNat then raiseStatus s .lenError
  else if s.bufLen.toNat < minLen then raiseStatus s .malformedFrame
  else
    match s.bufBytes s.bufLen.toNat with
    | none => raiseUnwrittenRead
    | some bytes => .next (k bytes)

end Sys2Proof.Machine
end

