-- ==== Sys2Proof/Machine/Crc.lean ====
section
/-! DEFINITION. The two functions of the CRC engine (R68, R69, R72), which all four commands share. -/

namespace Sys2Proof.Machine

/-- One shift of the CRC datapath: test bit 0, shift right, exclusive-or the polynomial if the bit was 1 (R68). -/
def crcShift (c : Half) : Half := if c.getLsbD 0 then (c >>> 1) ^^^ Config.crcPoly else c >>> 1

/-- `n` shifts. -/
def crcShifts : Nat → Half → Half
  | 0, c => c
  | n + 1, c => crcShifts n (crcShift c)

/-- `crc_byte(c, b)`: the byte is exclusive-ored into the low 8 bits, then 8 shifts (R68). The order of operations is
the spec's general knowledge, G1: PRESUMED, log entry 12. -/
def crcByte (c : Half) (b : Byte) : Half := crcShifts 8 (c ^^^ b.setWidth 16)

/-- `crc16_modbus(s)`: the fold of `crc_byte` from CRC_INIT, no final exclusive-or, no reflection (R69; G2:
PRESUMED, log entry 12). -/
def crc16Modbus (bytes : List Byte) : Half := bytes.foldl crcByte Config.crcInit

/-- A CRC as it is sent and compared: low byte first (R69, R49, R50). -/
def crcWire (c : Half) : List Byte := [byteOf c 0, byteOf c 1]

/-- `v5_checksum(s)`: the sum modulo 256 of s[1, n-2), that is of the n-3 bytes from index 1 on; 0 for n ≤ 3 (R72). -/
def v5Checksum (bytes : List Byte) : Byte :=
  ((bytes.drop 1).take (bytes.length - 3)).foldl (· + ·) 0x00#8

end Sys2Proof.Machine
end

