-- ==== Sys2Proof/Machine/Checksum.lean ====
section
/-! DEFINITION. The checksum family: CRC16 (R71) and V5SUM (R73). -/

namespace Sys2Proof.Machine

/-- CRC16: CRC_RESULT <- crc16_modbus(BUF[0, BUF_LEN)), STATUS.CODE <- OK (R71). -/
def execCrc16 (s : State) : Answer :=
  withBuffer 0 s fun bytes => { s with crcResult := crc16Modbus bytes, statusCode := .ok }

/-- V5SUM: SUM_RESULT <- v5_checksum(BUF[0, BUF_LEN)), STATUS.CODE <- OK (R73). -/
def execV5sum (s : State) : Answer :=
  withBuffer 0 s fun bytes => { s with sumResult := v5Checksum bytes, statusCode := .ok }

end Sys2Proof.Machine
end

