-- ==== Sys2Proof/Machine/Decoder.lean ====
section
/-! DEFINITION. The V5 response decoder: the bounded backward scan and DECODE (R86 to R95). -/

namespace Sys2Proof.Machine

/-- Byte j of the input; the scan reads none at or above its length (R95). -/
def byteAt (bytes : List Byte) (j : Nat) : Byte := bytes.getD j 0x00#8

/-- s[i..i+4]: slave id, function code, byte count and two data bytes, the span a reply's CRC covers (R90). -/
def replySpan (bytes : List Byte) (i : Nat) : List Byte := (bytes.drop i).take 5

/-- What the scan makes of one offset. -/
inductive Verdict where
  /-- Not a candidate, or a candidate whose byte count is not 2 (R89). -/
  | skip
  /-- A candidate that reached the CRC test and failed it (R91). -/
  | crcFail
  /-- A CRC-valid reply with these data bytes, high byte first (R92). -/
  | reply (hi lo : Byte)
  deriving DecidableEq, Repr

/-- An offset is a candidate when it holds the slave id followed by function code 0x03 (R89). -/
def isCandidate (bytes : List Byte) (sid : Byte) (i : Nat) : Bool :=
  byteAt bytes i == sid && byteAt bytes (i + 1) == Config.mbReadHolding

/-- A candidate goes on to the CRC test when its byte count is 2 and i+5 < len (R89). -/
def countAccepted (bytes : List Byte) (i : Nat) : Bool :=
  byteAt bytes (i + 2) == Config.decByteCount && decide (i + 5 < bytes.length)

/-- The CRC of the 5-byte span equals the two bytes after it, little-endian (R90). -/
def crcMatches (bytes : List Byte) (i : Nat) : Bool :=
  crc16Modbus (replySpan bytes i) == packHalf (byteAt bytes (i + 6)) (byteAt bytes (i + 5))

/-- The body of the scan's loop at offset i (R86). -/
def verdictAt (bytes : List Byte) (sid : Byte) (i : Nat) : Verdict :=
  if isCandidate bytes sid i then
    if countAccepted bytes i then
      if crcMatches bytes i then .reply (byteAt bytes (i + 3)) (byteAt bytes (i + 4)) else .crcFail
    else .skip
  else .skip

/-- How the scan ends. -/
inductive ScanResult where
  /-- The first offset in scan order that holds a CRC-valid reply, and its data bytes (R92). -/
  | found (hi lo : Byte)
  /-- No offset does; whether some candidate failed its CRC (R94). -/
  | exhausted (crcFail : Bool)
  deriving DecidableEq, Repr

/-- The scan over `n` offsets, from 5+n-1 down to 5; a mismatch or a wrong count continues (R88, R89, R91). -/
def scan (bytes : List Byte) (sid : Byte) : Nat → Bool → ScanResult
  | 0, crcFail => .exhausted crcFail
  | n + 1, crcFail =>
    match verdictAt bytes sid (Config.decScanLo + n) with
    | .reply hi lo => .found hi lo
    | .crcFail => scan bytes sid n true
    | .skip => scan bytes sid n crcFail

/-- How many offsets lie from len - 8 down to 5: len - 12 for a length of 15 or more (R88). -/
def scanCount (len : Nat) : Nat := len - Config.decScanTail + 1 - Config.decScanLo

/-- The whole scan of an input (R88). -/
def scanAll (bytes : List Byte) (sid : Byte) : ScanResult := scan bytes sid (scanCount bytes.length) false

/-- The state after a scan: RESULT and OK on success (R92), STATUS.CODE alone on failure (R94). -/
def State.finishDecode (s : State) (distinct : Bool) : ScanResult → State
  | .found hi lo =>
    { s with resultValue := packHalf hi lo, resultSigned := signHint hi, statusCode := .ok }
  | .exhausted crcFail => s.setStatus (if distinct && crcFail then .checksumMismatch else .notFound)

/-- DECODE, with P_CRC_MISMATCH_DISTINCT as an argument (R8, R86). -/
def execDecodeWith (distinct : Bool) (s : State) : Answer :=
  withBuffer Config.decMinLen s fun bytes => s.finishDecode distinct (scanAll bytes s.slaveId)

/-- DECODE of this block (R86). -/
def execDecode (s : State) : Answer := execDecodeWith Config.crcMismatchDistinct s

end Sys2Proof.Machine
end

