-- ==== Sys2Proof/Machine/Encoder.lean ====
section
/-! DEFINITION. The V5 request frame (R75, R76) and ENCODE (R77). -/

namespace Sys2Proof.Machine

/-- The six bytes REQ[26..31] that the request's Modbus CRC covers: slave id, function code, start address and count,
both big-endian (R78, C1). -/
def modbusRequest (sid : Byte) (addr cnt : Half) : List Byte :=
  [sid, Config.mbReadHolding, byteOf addr 1, byteOf addr 0, byteOf cnt 1, byteOf cnt 0]

/-- The layout table of R75, given the CRC of bytes 26-31 and the checksum byte 34. -/
def frameLayout (sid : Byte) (addr cnt : Half) (ser : Word) (seq : Byte) (crc : Half) (sum : Byte) : Vector Byte 36 :=
  #v[Config.v5Start,
     byteOf Config.v5LengthField 0, byteOf Config.v5LengthField 1,
     Config.v5Control0, Config.v5Control1,
     seq,
     0x00#8,
     byteOf ser 0, byteOf ser 1, byteOf ser 2, byteOf ser 3,
     Config.v5SubframeInverter,
     0x00#8, 0x00#8, 0x00#8, 0x00#8, 0x00#8, 0x00#8, 0x00#8,
     0x00#8, 0x00#8, 0x00#8, 0x00#8, 0x00#8, 0x00#8, 0x00#8,
     sid,
     Config.mbReadHolding,
     byteOf addr 1, byteOf addr 0,
     byteOf cnt 1, byteOf cnt 0,
     byteOf crc 0, byteOf crc 1,
     sum,
     Config.v5End]

/-- `frame(sid, addr, cnt, ser, seq)` (R76). The checksum is taken over the assembled frame, whose byte 34 it does not
read. -/
def frame (sid : Byte) (addr cnt : Half) (ser : Word) (seq : Byte) : Vector Byte 36 :=
  let crc := crc16Modbus (modbusRequest sid addr cnt)
  let draft := frameLayout sid addr cnt ser seq crc 0x00#8
  frameLayout sid addr cnt ser seq crc (v5Checksum draft.toList)

/-- ENCODE: CONFIG_UNSET while SERIAL_VALID = 0 (R79); otherwise REQ takes the frame built with SEQ as it stands, and
SEQ advances modulo 256 (R77, R80). -/
def execEncode (s : State) : Answer :=
  if s.serialValid then
    .next { s with
      req := frame s.slaveId s.reqAddr s.reqCount s.serial s.seq
      seq := s.seq + 1#8
      statusCode := .ok }
  else raiseStatus s .configUnset

end Sys2Proof.Machine
end

