-- ==== Sys2Proof/Machine/Window.lean ====
section
/-! DEFINITION. The register window (R40 to R48): the register map, host reads, and host writes other than commands. -/

namespace Sys2Proof.Machine

/-- The registers of the map (R45). -/
inductive Reg where
  | cmd
  | status
  | slaveId
  | serial
  | seq
  | reqAddr
  | reqCount
  | bufLen
  | result
  | crcResult
  | sumResult
  deriving DecidableEq, Repr

/-- What a window offset names (R45). -/
inductive Target where
  /-- A register of the map. -/
  | reg (r : Reg)
  /-- Word k of REQ, 0x100 + 4k (R47). -/
  | reqWord (k : Nat)
  /-- Word k of BUF, 0x200 + 4k (R48). -/
  | bufWord (k : Nat)
  /-- Everything else (R43). -/
  | reserved
  deriving DecidableEq, Repr

/-- The offset of a register (R45). -/
def Reg.offset : Reg → Offset
  | .cmd => 0x000#12
  | .status => 0x004#12
  | .slaveId => 0x008#12
  | .serial => 0x00C#12
  | .seq => 0x010#12
  | .reqAddr => 0x014#12
  | .reqCount => 0x018#12
  | .bufLen => 0x01C#12
  | .result => 0x020#12
  | .crcResult => 0x024#12
  | .sumResult => 0x028#12

/-- The offset of word k of REQ (R47). -/
def reqOffset (k : Nat) : Offset := BitVec.ofNat 12 (0x100 + 4 * k)

/-- The offset of word k of BUF (R48). -/
def bufOffset (k : Nat) : Offset := BitVec.ofNat 12 (0x200 + 4 * k)

/-- The registers in the order of the map (R45). -/
def Reg.all : List Reg :=
  [.cmd, .status, .slaveId, .serial, .seq, .reqAddr, .reqCount, .bufLen, .result, .crcResult, .sumResult]

/-- The register at an offset, if one stands there (R45). -/
def regAt (off : Offset) : Option Reg := Reg.all.find? (fun r => r.offset == off)

/-- The register map (R45), read from the word-aligned offset. -/
def locate (off : Offset) : Target :=
  if 0x100 ≤ off.toNat ∧ off.toNat ≤ 0x123 then .reqWord ((off.toNat - 0x100) / 4)
  else if 0x200 ≤ off.toNat ∧ off.toNat ≤ 0x32B then .bufWord ((off.toNat - 0x200) / 4)
  else
    match regAt off with
    | some r => .reg r
    | none => .reserved

/-- What a host read of a register returns, zero-extended (R46). CMD reads 0 (R27). SERIAL reads as the word it holds
whether or not it has been written: the hardware returns one stable, unspecified value before the first write (R22,
R52). DESIGN CHOICE (log entry 5): the read completes, where the spec would have a model fault; the value is the one
`State.reset` names (log entry 3), so unsafe. -/
def State.readReg (s : State) : Reg → Word
  | .cmd => 0#32
  | .status => s.statusWord
  | .slaveId => s.slaveId.setWidth 32
  | .serial => s.serial
  | .seq => s.seq.setWidth 32
  | .reqAddr => s.reqAddr.setWidth 32
  | .reqCount => s.reqCount.setWidth 32
  | .bufLen => s.bufLen.setWidth 32
  | .result => s.resultWord
  | .crcResult => s.crcResult.setWidth 32
  | .sumResult => s.sumResult.setWidth 32

/-- A host write of a register other than CMD: the low bits of the word into the field, reserved bits dropped; a write
of SERIAL also sets SERIAL_VALID; a write of a read-only register is ignored (R46). -/
def State.writeReg (s : State) (v : Word) : Reg → State
  | .cmd => s
  | .status => s
  | .slaveId => { s with slaveId := v.setWidth 8 }
  | .serial => { s with serial := v, serialValid := true }
  | .seq => { s with seq := v.setWidth 8 }
  | .reqAddr => { s with reqAddr := v.setWidth 16 }
  | .reqCount => { s with reqCount := v.setWidth 16 }
  | .bufLen => { s with bufLen := v.setWidth 9 }
  | .result => s
  | .crcResult => s
  | .sumResult => s

/-- What a host read of an aligned offset returns; none where the model faults: a BUF word with an unwritten byte
(R46). -/
def State.readTarget (s : State) : Target → Option Word
  | .reg r => some (s.readReg r)
  | .reqWord k => some (s.reqWord k)
  | .bufWord k => s.bufWord k
  | .reserved => some 0#32

end Sys2Proof.Machine
end

