-- ==== Sys2Proof/Machine/Bus.lean ====
section
/-! DEFINITION. The host's accesses (R46), the command a CMD write runs (R60), and the host's events. -/

namespace Sys2Proof.Machine

/-- RunCommand(v): the command a word encodes, ILLEGAL_CMD where it encodes none (R60, R62, R63). -/
def runCommand (v : Word) (s : State) : Answer :=
  match decodeCommand v with
  | .ok i => exec i s
  | .error _ => raiseStatus s .illegalCmd

/-- MemRead(off, 4) at an aligned offset: the word goes to the host, the block does not change (R46). -/
def memRead (off : Offset) (s : State) : Answer :=
  match s.readTarget (locate off) with
  | some w => .next { s with readData := some w }
  | none => raiseUnwrittenRead

/-- MemWrite(off, 4, v) at an aligned offset (R46). REQ, read-only registers and reserved offsets ignore it. -/
def memWrite (off : Offset) (v : Word) (s : State) : Answer :=
  match locate off with
  | .bufWord k => .next (s.writeBufWord k v)
  | .reg .cmd => runCommand v s
  | .reg r => .next (s.writeReg v r)
  | .reqWord _ => .next s
  | .reserved => .next s

/-- An access the interface cannot carry is refused, its size looked at first (R41, R42, I3). -/
def checkAccess (off : Offset) (size : Nat) (a : Answer) : Answer :=
  if size = 4 then if aligned off then a else .refused .misalignedAccess else .refused .notWordAccess

/-- One event from outside, carried out whole (R55). -/
def perform (e : HostEvent) (s : State) : Answer :=
  match e with
  | .read off size => checkAccess off size (memRead off s)
  | .write off size v => checkAccess off size (memWrite off v s)
  | .reset => .next s.applyReset

end Sys2Proof.Machine
end

