-- ==== Sys2Proof/Machine/Step.lean ====
section
/-! DEFINITION. One step: the host's next event, carried out to its end (R55); and how the host's records place a
command where the next step takes it. -/

namespace Sys2Proof.Machine

/-- The block steps only inside a host event, and with none pending it stays as it is (R19, R108; log entry 17). -/
def step (s : State) : Host.Outcome State Fault Refusal :=
  match s.pending with
  | [] => .next s
  | e :: rest => perform e { s with pending := rest }

/-- The command is the data of the CMD write itself (R58): `w`, as the command table numbers its bits, becomes the
data of the host's next access, a write of CMD, before the accesses already pending (log entry 10). -/
def State.withFetchWord (s : State) (nbits w : Nat) : State :=
  { s with pending := .write Reg.cmd.offset 4 (BitVec.ofNat 32 (w % 2 ^ nbits)) :: s.pending }

end Sys2Proof.Machine
end

