-- ==== Sys2Proof/Machine/HostProgram.lean ====
section
/-! DEFINITION. The host-program forms of rules R66, R67 and R111: single accesses, the pseudo-instructions `cmd`,
`loadbuf` and `setid`, and the two halves of one register read. -/

namespace Sys2Proof.Machine

/-- `wr REG, v` (R66). -/
def wr (r : Reg) (v : Word) : HostEvent := .write r.offset 4 v

/-- `rd REG` (R66). -/
def rd (r : Reg) : HostEvent := .read r.offset 4

/-- `cmd <command>`: the command word written to CMD (R67). -/
def cmd (i : Instr) : HostEvent := wr .cmd (encodeCommand i)

/-- The writes of `loadbuf` from BUF word k on, missing bytes taken as 0x00 (R67). -/
def loadbufWords : Nat → List Byte → List HostEvent
  | _, [] => []
  | k, [b0] => [.write (bufOffset k) 4 (packWord b0 0x00#8 0x00#8 0x00#8)]
  | k, [b0, b1] => [.write (bufOffset k) 4 (packWord b0 b1 0x00#8 0x00#8)]
  | k, [b0, b1, b2] => [.write (bufOffset k) 4 (packWord b0 b1 b2 0x00#8)]
  | k, b0 :: b1 :: b2 :: b3 :: rest =>
    .write (bufOffset k) 4 (packWord b0 b1 b2 b3) :: loadbufWords (k + 1) rest

/-- `loadbuf b0 … b(n-1)`, for n at most 300 (R67). -/
def loadbuf (bytes : List Byte) : List HostEvent :=
  loadbufWords 0 bytes ++ [wr .bufLen (BitVec.ofNat 32 bytes.length)]

/-- `setid slave, serial` (R67). -/
def setid (slave serial : Word) : List HostEvent := [wr .slaveId slave, wr .serial serial]

/-- The request half of one register read: the address, ENCODE, STATUS and the nine words of REQ (R111). -/
def requestAccesses (addr : Half) : List HostEvent :=
  [wr .reqAddr (addr.setWidth 32), cmd .encode, rd .status] ++
    (List.range 9).map (fun k => .read (reqOffset k) 4)

/-- The reply half: the response into BUF, DECODE, STATUS and RESULT, which the host uses only when STATUS.CODE is OK
(R111, R113). -/
def replyAccesses (bytes : List Byte) : List HostEvent :=
  loadbuf bytes ++ [cmd .decode, rd .status, rd .result]

end Sys2Proof.Machine
end

