-- ==== Sys2Proof/Safety.lean ====
section
/-! DEFINITION. The terms in which claims about the block are stated: what BUF holds, where a response holds a reply,
which fields are defined, when the model stops, and the invariants every step keeps. -/

namespace Sys2Proof.Machine

/-- BUF[0, BUF_LEN) has been written and holds exactly these bytes (R34, R35). -/
def State.Holds (s : State) (bytes : List Byte) : Prop :=
  bytes.length = s.bufLen.toNat ∧ ∀ j, j < bytes.length → s.bufByte j = bytes[j]?

/-- Some byte of BUF[0, BUF_LEN) has not been written since reset (R35). -/
def State.Unwritten (s : State) : Prop := ∃ j, j < s.bufLen.toNat ∧ s.written j = false

/-- Offset i is one of those DECODE scans in an input of length n, for n of 15 or more: len - 8 down to 5 (R88). -/
def InScan (n i : Nat) : Prop := 5 ≤ i ∧ i + 8 ≤ n

/-- At offset i: the slave id, function code 0x03, a byte count of 2, the data bytes hi and lo, and two more bytes
(R89, R90). -/
def CandidateAt (bytes : List Byte) (sid : Byte) (i : Nat) (hi lo c0 c1 : Byte) : Prop :=
  bytes[i]? = some sid ∧ bytes[i + 1]? = some 0x03#8 ∧ bytes[i + 2]? = some 0x02#8 ∧
  bytes[i + 3]? = some hi ∧ bytes[i + 4]? = some lo ∧ bytes[i + 5]? = some c0 ∧ bytes[i + 6]? = some c1

/-- At offset i stands a Modbus read reply with data bytes hi and lo whose CRC, sent low byte first, is right (R90). -/
def ReplyAt (bytes : List Byte) (sid : Byte) (i : Nat) (hi lo : Byte) : Prop :=
  ∃ c0 c1, CandidateAt bytes sid i hi lo c0 c1 ∧
    crc16Modbus [sid, 0x03#8, 0x02#8, hi, lo] = packHalf c1 c0

/-- At offset i stands a candidate that reaches the CRC test and fails it (R91, R94). -/
def FailedCrcAt (bytes : List Byte) (sid : Byte) (i : Nat) : Prop :=
  ∃ hi lo c0 c1, CandidateAt bytes sid i hi lo c0 c1 ∧
    crc16Modbus [sid, 0x03#8, 0x02#8, hi, lo] ≠ packHalf c1 c0

/-- The bits of a register's word that are no reserved bits (R21 to R32). All 32 of CMD: its RSVD bits are not ignored
but make the command illegal (R62). -/
def Reg.fieldMask : Reg → Word
  | .cmd => 0xFFFFFFFF#32
  | .status => 0x0000010F#32
  | .slaveId => 0x000000FF#32
  | .serial => 0xFFFFFFFF#32
  | .seq => 0x000000FF#32
  | .reqAddr => 0x0000FFFF#32
  | .reqCount => 0x0000FFFF#32
  | .bufLen => 0x000001FF#32
  | .result => 0x0001FFFF#32
  | .crcResult => 0x0000FFFF#32
  | .sumResult => 0x000000FF#32

/-- An offset of the reserved ranges of the map (R45). -/
def ReservedOffset (off : Offset) : Prop :=
  (0x02C ≤ off.toNat ∧ off.toNat ≤ 0x0FF) ∨ (0x124 ≤ off.toNat ∧ off.toNat ≤ 0x1FF) ∨ 0x32C ≤ off.toNat

/-- A host read that the model stops on: a BUF word with an unwritten byte (R35, R46, R99). -/
def State.ReadFaults (s : State) (off : Offset) : Prop :=
  ∃ k, k < 75 ∧ off.toNat = 0x200 + 4 * k ∧
    (s.written (4 * k) = false ∨ s.written (4 * k + 1) = false ∨
      s.written (4 * k + 2) = false ∨ s.written (4 * k + 3) = false)

/-- A CMD write that the model stops on: CRC16 or V5SUM with BUF_LEN ≤ 300, or DECODE with 15 ≤ BUF_LEN ≤ 300, over an
unwritten byte (R98, R99). -/
def State.CommandFaults (s : State) (v : Word) : Prop :=
  (v = 1#32 ∨ v = 2#32 ∨ (v = 4#32 ∧ 15 ≤ s.bufLen.toNat)) ∧ s.bufLen.toNat ≤ 300 ∧ s.Unwritten

/-- The host event on which the model stops with UnwrittenRead: one that reads an unwritten byte of BUF (R99). -/
def State.EventFaults (s : State) : HostEvent → Prop
  | .read off size => size = 4 ∧ s.ReadFaults off
  | .write off size v => size = 4 ∧ off = 0x000#12 ∧ s.CommandFaults v
  | .reset => False

/-- The whole REQ window validates itself: the CRC of bytes 26-31 stands at 32-33, the V5 checksum at 34 (R85). -/
def SelfValidates (f : Vector Byte 36) : Prop :=
  crc16Modbus [f[26], f[27], f[28], f[29], f[30], f[31]] = packHalf f[33] f[32] ∧
  v5Checksum f.toList = f[34]

/-- The bytes no register changes (R83). -/
def HasFixedBytes (f : Vector Byte 36) : Prop :=
  f[0] = 0xA5#8 ∧ f[1] = 0x17#8 ∧ f[2] = 0x00#8 ∧ f[3] = 0x10#8 ∧ f[4] = 0x45#8 ∧ f[6] = 0x00#8 ∧
  f[11] = 0x02#8 ∧ (∀ j : Fin 36, 12 ≤ j.val → j.val ≤ 25 → f[j] = 0x00#8) ∧ f[27] = 0x03#8 ∧ f[35] = 0x15#8

/-- The invariant of REQ: still as reset left it, or a complete request frame (R33). -/
def State.RequestInv (s : State) : Prop :=
  s.req = Vector.replicate 36 0x00#8 ∨ (HasFixedBytes s.req ∧ SelfValidates s.req)

/-- The invariant of BUF: its cells are in canonical form and lie in BUF[0..299]. -/
def State.BufInv (s : State) : Prop := Memory.wf s.buf = true

/-- The statuses a command can end with (R96). -/
def StatusCode.RaisedBy : StatusCode → Instr → Prop
  | .ok, _ => True
  | .malformedFrame, i => i = .decode
  | .checksumMismatch, i => i = .decode ∧ Config.crcMismatchDistinct = true
  | .notFound, i => i = .decode
  | .lenError, i => i = .crc16 ∨ i = .v5sum ∨ i = .decode
  | .configUnset, i => i = .encode
  | .illegalCmd, _ => False
  | .noCommand, _ => False

/-- A safe run: the host keeps to the duties of R104 and R110, so that no event stops the model. -/
def State.EventSafe (s : State) (e : HostEvent) : Prop := e.WellFormed = true ∧ ¬ s.EventFaults e

end Sys2Proof.Machine
end

