-- ==== Sys2Proof/Certificates/Slice0/Obligations.lean ====
section
/-! DEFINITION. The statements about the block, from the numbered rules of spec/. A host event is carried out by `step`
when it is the first of `pending`; CMD is at offset 0x000 (R45). -/

open Sys2Proof Sys2Proof.Machine

/-! ### Encoding -/

/-- R61, R62, R63: a few words written out bit by bit from the map. -/
def Obligations.CommandWordsReadFromTheMap : Prop :=
  decodeCommand 0b00000000000000000000000000000001#32 = .ok .crc16 ∧
  decodeCommand 0b00000000000000000000000000000010#32 = .ok .v5sum ∧
  decodeCommand 0b00000000000000000000000000000011#32 = .ok .encode ∧
  decodeCommand 0b00000000000000000000000000000100#32 = .ok .decode ∧
  decodeCommand 0b00000000000000000000000000000000#32 = .error .unknownOpcode ∧
  decodeCommand 0b00000000000000000000000000000101#32 = .error .unknownOpcode ∧
  decodeCommand 0b00000000000000000000000100000011#32 = .error .reservedBitsSet

/-- R60, R61, R63: the decoder reads a command from exactly the word the encoder writes for it, and from no other. -/
def Obligations.DecodeEncodeAgree : Prop :=
  ∀ (v : Word) (i : Instr), decodeCommand v = .ok i ↔ i.WellFormed = true ∧ v = encodeCommand i

/-- R60, R62, R63: a word is refused by the decoder, by name, exactly where RSVD is not zero or OP is not 1 to 4. -/
def Obligations.DecoderRejectsByName : Prop :=
  ∀ v : Word,
    (decodeCommand v = .error .reservedBitsSet ↔ v.extractLsb' 8 24 ≠ 0#24) ∧
    (decodeCommand v = .error .unknownOpcode ↔
      v.extractLsb' 8 24 = 0#24 ∧ ((v.extractLsb' 0 8).toNat = 0 ∨ 5 ≤ (v.extractLsb' 0 8).toNat))

/-- R66: a host access and its 48-bit transaction determine each other. That a transaction whose bits 46 to 44 are not
000, or a read whose DATA is not 0, is no access's and decodes to nothing is the model's choice (log entry 18:
R66 gives neither a meaning). -/
def Obligations.TransactionsAgree : Prop :=
  ∀ (t : Transaction) (e : HostEvent), encodeTransaction e = some t ↔ decodeTransaction t = some e

/-! ### The step -/

/-- R55, R58, R60: when the host's next access writes CMD with a word that decodes to a command, the step is that
command, run with the access taken from `pending`. -/
def Obligations.StepRunsTheDecodedCommand : Prop :=
  ∀ (s : State) (v : Word) (i : Instr) (rest : List HostEvent),
    s.pending = .write 0x000#12 4 v :: rest → decodeCommand v = .ok i →
    step s = exec i { s with pending := rest }

/-- R19, R108: with no host event the block stays as it is. -/
def Obligations.BlockIdlesWithoutHostAccess : Prop :=
  ∀ s : State, s.pending = [] → step s = .next s

/-- R55: a step that goes on takes exactly one event, the oldest. -/
def Obligations.EachStepTakesOneEvent : Prop :=
  ∀ (s t : State) (e : HostEvent) (rest : List HostEvent),
    s.pending = e :: rest → step s = .next t → t.pending = rest

/-- R42: an access with `off[1:0]` other than 0b00 is refused. -/
def Obligations.MisalignedAccessIsRefused : Prop :=
  ∀ (s : State) (off : Offset) (v : Word) (rest : List HostEvent), off.extractLsb' 0 2 ≠ 0b00#2 →
    (s.pending = .read off 4 :: rest → step s = .refused .misalignedAccess) ∧
    (s.pending = .write off 4 v :: rest → step s = .refused .misalignedAccess)

/-- R41, R42: the step refuses only an access that is not 32 bits wide or not aligned; in particular no command is
refused. That an access which is both narrow and misaligned gets the name notWordAccess, its width looked at first, is
the model's choice (log entry 8). -/
def Obligations.RefusesExactlyTheNonTransactions : Prop :=
  ∀ (s : State) (r : Refusal), step s = .refused r ↔
    ∃ (off : Offset) (size : Nat) (v : Word) (rest : List HostEvent),
      (s.pending = .read off size :: rest ∨ s.pending = .write off size v :: rest) ∧
      ((size ≠ 4 ∧ r = .notWordAccess) ∨ (size = 4 ∧ off.toNat % 4 ≠ 0 ∧ r = .misalignedAccess))

/-- R35, R99: the model faults exactly when a command reads BUF[0, BUF_LEN), or the host a BUF word, with a byte not
written since reset. That a read of SERIAL while SERIAL_VALID = 0 does not fault is the model's choice (log entry 5). -/
def Obligations.FaultsExactlyOnUnwrittenReads : Prop :=
  ∀ (s : State) (f : Fault), step s = .fault f ↔ ∃ e rest, s.pending = e :: rest ∧ s.EventFaults e

/-! ### The register window -/

/-- R46: what a host read of each register returns. That the read of SERIAL completes while SERIAL_VALID = 0 too, with
the word SERIAL holds, is the model's choice (log entry 5). -/
def Obligations.RegisterReadsReturnTheField : Prop :=
  ∀ (s : State) (off : Offset) (w : Word) (rest : List HostEvent), s.pending = .read off 4 :: rest →
    ((off = 0x000#12 ∧ w = 0#32) ∨
     (off = 0x004#12 ∧ w.toNat = (if s.serialValid then 256 else 0) + s.statusCode.code.toNat) ∨
     (off = 0x008#12 ∧ w.toNat = s.slaveId.toNat) ∨
     (off = 0x00C#12 ∧ w = s.serial) ∨
     (off = 0x010#12 ∧ w.toNat = s.seq.toNat) ∨
     (off = 0x014#12 ∧ w.toNat = s.reqAddr.toNat) ∨
     (off = 0x018#12 ∧ w.toNat = s.reqCount.toNat) ∨
     (off = 0x01C#12 ∧ w.toNat = s.bufLen.toNat) ∨
     (off = 0x020#12 ∧ w.toNat = (if s.resultSigned then 65536 else 0) + s.resultValue.toNat) ∨
     (off = 0x024#12 ∧ w.toNat = s.crcResult.toNat) ∨
     (off = 0x028#12 ∧ w.toNat = s.sumResult.toNat)) →
    step s = .next { s with pending := rest, readData := some w }

/-- R46: what a host write of each register other than CMD does; the read-only ones ignore it. -/
def Obligations.RegisterWritesStoreTheField : Prop :=
  ∀ (s : State) (off : Offset) (v : Word) (rest : List HostEvent), s.pending = .write off 4 v :: rest →
    (off = 0x008#12 → step s = .next { s with pending := rest, slaveId := BitVec.ofNat 8 v.toNat }) ∧
    (off = 0x00C#12 → step s = .next { s with pending := rest, serial := v, serialValid := true }) ∧
    (off = 0x010#12 → step s = .next { s with pending := rest, seq := BitVec.ofNat 8 v.toNat }) ∧
    (off = 0x014#12 → step s = .next { s with pending := rest, reqAddr := BitVec.ofNat 16 v.toNat }) ∧
    (off = 0x018#12 → step s = .next { s with pending := rest, reqCount := BitVec.ofNat 16 v.toNat }) ∧
    (off = 0x01C#12 → step s = .next { s with pending := rest, bufLen := BitVec.ofNat 9 v.toNat }) ∧
    (off = 0x004#12 ∨ off = 0x020#12 ∨ off = 0x024#12 ∨ off = 0x028#12 →
      step s = .next { s with pending := rest })

/-- R43: a reserved offset reads 0 and ignores writes; the reserved bits of a register read 0 and their written value
is discarded. -/
def Obligations.ReservedSpaceReadsZero : Prop :=
  (∀ (s : State) (off : Offset) (v : Word) (rest : List HostEvent), ReservedOffset off → off.toNat % 4 = 0 →
    (s.pending = .read off 4 :: rest → step s = .next { s with pending := rest, readData := some 0#32 }) ∧
    (s.pending = .write off 4 v :: rest → step s = .next { s with pending := rest })) ∧
  (∀ (s t : State) (r : Reg) (rest : List HostEvent), s.pending = .read r.offset 4 :: rest → step s = .next t →
    ∃ w, t.readData = some w ∧ w &&& ~~~r.fieldMask = 0#32) ∧
  (∀ (s : State) (r : Reg) (v v' : Word) (rest : List HostEvent), v &&& r.fieldMask = v' &&& r.fieldMask →
    step { s with pending := .write r.offset 4 v :: rest } = step { s with pending := .write r.offset 4 v' :: rest })

/-- R47: word k of the REQ window, little-endian, read-only. -/
def Obligations.ReqWindowReadsTheFrame : Prop :=
  ∀ (s : State) (k : Nat) (hk : k < 9) (v : Word) (rest : List HostEvent),
    (s.pending = .read (BitVec.ofNat 12 (0x100 + 4 * k)) 4 :: rest →
      step s = .next { s with
        pending := rest
        readData := some (s.req[4 * k + 3] ++ s.req[4 * k + 2] ++ s.req[4 * k + 1] ++ s.req[4 * k]) }) ∧
    (s.pending = .write (BitVec.ofNat 12 (0x100 + 4 * k)) 4 v :: rest → step s = .next { s with pending := rest })

/-- R44, R46: word k of the BUF window reads its four bytes, little-endian, where they have been written. -/
def Obligations.BufWindowReadsWrittenWords : Prop :=
  ∀ (s : State) (k : Nat) (b0 b1 b2 b3 : Byte) (rest : List HostEvent), k < 75 →
    s.bufByte (4 * k) = some b0 → s.bufByte (4 * k + 1) = some b1 →
    s.bufByte (4 * k + 2) = some b2 → s.bufByte (4 * k + 3) = some b3 →
    s.pending = .read (BitVec.ofNat 12 (0x200 + 4 * k)) 4 :: rest →
    step s = .next { s with pending := rest, readData := some (b3 ++ b2 ++ b1 ++ b0) }

/-- R46, R48, R116: a write of BUF word k writes and marks exactly its four bytes, little-endian, and changes nothing
else, BUF_LEN included; reading the word back gives what was written. -/
def Obligations.BufWordWriteThenRead : Prop :=
  ∀ (s : State) (k : Nat) (v : Word) (rest : List HostEvent), k < 75 →
    s.pending = .write (BitVec.ofNat 12 (0x200 + 4 * k)) 4 v :: rest →
    ∃ t, step s = .next t ∧
      (∀ m, m < 4 → t.bufByte (4 * k + m) = some (v.extractLsb' (8 * m) 8) ∧ t.written (4 * k + m) = true) ∧
      (∀ j, (j < 4 * k ∨ 4 * k + 4 ≤ j) → t.bufByte j = s.bufByte j) ∧
      { t with buf := s.buf } = { s with pending := rest } ∧
      (∀ rest', step { t with pending := .read (BitVec.ofNat 12 (0x200 + 4 * k)) 4 :: rest' } =
        .next { t with pending := rest', readData := some v })

/-- R46, R52: a read has no side effect: only what it returned, and that it has happened, is new. -/
def Obligations.HostReadsChangeNothing : Prop :=
  ∀ (s t : State) (off : Offset) (size : Nat) (rest : List HostEvent),
    s.pending = .read off size :: rest → step s = .next t →
    { t with readData := s.readData } = { s with pending := rest }

/-- R52: a read repeated with no write between completes again and returns the same value, SERIAL before its first
write included. -/
def Obligations.RepeatedReadsAgree : Prop :=
  ∀ (s t : State) (off : Offset) (size : Nat) (rest : List HostEvent),
    s.pending = .read off size :: .read off size :: rest → step s = .next t →
    step t = .next { t with pending := rest }

/-- R52: carrying out a host write other than of CMD twice leaves the state carrying it out once left. -/
def Obligations.HostWritesAreIdempotent : Prop :=
  ∀ (s t u : State) (off : Offset) (v : Word) (rest : List HostEvent), s.BufInv → off ≠ 0x000#12 →
    s.pending = .write off 4 v :: .write off 4 v :: rest → step s = .next t → step t = .next u →
    u = { t with pending := rest }

/-! ### Who writes what -/

/-- R23: SERIAL_VALID is cleared by reset, set by any host write to SERIAL, and changed by nothing else; STATUS shows
it at bit 8; ENCODE depends on it. -/
def Obligations.SerialValidFollowsSerialWrites : Prop :=
  State.reset.serialValid = false ∧
  (∀ (s t : State) (e : HostEvent) (rest : List HostEvent), s.pending = e :: rest → step s = .next t →
    (e = .reset → t.serialValid = false) ∧
    ((∃ v, e = .write 0x00C#12 4 v) → t.serialValid = true) ∧
    (e ≠ .reset → (∀ v, e ≠ .write 0x00C#12 4 v) → t.serialValid = s.serialValid)) ∧
  (∀ (s t : State) (rest : List HostEvent), s.pending = .read 0x004#12 4 :: rest → step s = .next t →
    ∃ w, t.readData = some w ∧ w.getLsbD 8 = s.serialValid) ∧
  (∀ s t : State, exec .encode s = .next t → (t.statusCode = .configUnset ↔ s.serialValid = false))

/-- R80: byte 5 is SEQ as ENCODE finds it, ENCODE then adds 1 modulo 256; otherwise only reset and a host write of SEQ
change it, and reset leaves 0x45. -/
def Obligations.SequenceCounterRule : Prop :=
  State.reset.seq = 0x45#8 ∧
  (∀ s : State, s.serialValid = true →
    ∃ t, exec .encode s = .next t ∧ t.req[5] = s.seq ∧ t.seq.toNat = (s.seq.toNat + 1) % 256) ∧
  (∀ (s t : State) (e : HostEvent) (rest : List HostEvent), s.pending = e :: rest → step s = .next t →
    (e = .reset → t.seq = 0x45#8) ∧
    (∀ v, e = .write 0x010#12 4 v → t.seq.toNat = v.toNat % 256) ∧
    (e ≠ .reset → (∀ v, e ≠ .write 0x010#12 4 v) →
      ¬ (e = .write 0x000#12 4 0x00000003#32 ∧ s.serialValid = true) → t.seq = s.seq))

/-- R61, D18: what each command leaves unchanged, every byte of BUF included. -/
def Obligations.CommandsWriteOnlyTheirOutputs : Prop :=
  ∀ (i : Instr) (s t : State), exec i s = .next t →
    (t.slaveId = s.slaveId ∧ t.serial = s.serial ∧ t.serialValid = s.serialValid ∧ t.reqAddr = s.reqAddr ∧
      t.reqCount = s.reqCount ∧ t.bufLen = s.bufLen ∧ t.readData = s.readData ∧ t.pending = s.pending) ∧
    (∀ j, t.bufByte j = s.bufByte j ∧ t.written j = s.written j) ∧
    (i ≠ .encode → t.req = s.req ∧ t.seq = s.seq) ∧
    (i ≠ .decode → t.resultValue = s.resultValue ∧ t.resultSigned = s.resultSigned) ∧
    (i ≠ .crc16 → t.crcResult = s.crcResult) ∧
    (i ≠ .v5sum → t.sumResult = s.sumResult)

/-- R97: every CMD write ends in one of the codes a command writes; a code other than OK means nothing else changed;
no other host access changes the code. -/
def Obligations.StatusIsWrittenByCommandsOnly : Prop :=
  (∀ (s t : State) (v : Word) (rest : List HostEvent),
    s.pending = .write 0x000#12 4 v :: rest → step s = .next t →
    t.statusCode ≠ .noCommand ∧
    (t.statusCode ≠ .ok → t = { s with pending := rest, statusCode := t.statusCode })) ∧
  (∀ (s t : State) (e : HostEvent) (rest : List HostEvent), s.pending = e :: rest → step s = .next t →
    e ≠ .reset → (∀ v, e ≠ .write 0x000#12 4 v) → t.statusCode = s.statusCode)

/-- R96: the codes, and which command can end with which. -/
def Obligations.StatusCodesAndTheirRaisers : Prop :=
  (StatusCode.ok.code = 0x0#4 ∧ StatusCode.malformedFrame.code = 0x1#4 ∧ StatusCode.checksumMismatch.code = 0x2#4 ∧
    StatusCode.notFound.code = 0x3#4 ∧ StatusCode.lenError.code = 0x4#4 ∧ StatusCode.configUnset.code = 0x5#4 ∧
    StatusCode.illegalCmd.code = 0x6#4 ∧ StatusCode.noCommand.code = 0x7#4) ∧
  (∀ (i : Instr) (s t : State), exec i s = .next t →
    t.statusCode.RaisedBy i ∧
    (t.statusCode = .lenError ↔ i ≠ .encode ∧ 300 < s.bufLen.toNat) ∧
    (t.statusCode = .malformedFrame ↔ i = .decode ∧ s.bufLen.toNat < 15) ∧
    (t.statusCode = .configUnset ↔ i = .encode ∧ s.serialValid = false))

/-- R62, R63: a word with RSVD bits set, or with OP 0x00 or 0x05 to 0xFF, writes ILLEGAL_CMD and changes nothing
else. -/
def Obligations.IllegalWordsOnlySetTheStatus : Prop :=
  ∀ (s : State) (v : Word) (rest : List HostEvent), s.pending = .write 0x000#12 4 v :: rest →
    (v.extractLsb' 8 24 ≠ 0#24 ∨ (v.extractLsb' 0 8).toNat = 0 ∨ 5 ≤ (v.extractLsb' 0 8).toNat) →
    step s = .next { s with pending := rest, statusCode := .illegalCmd }

/-- R98: the order of checks on a CMD write; the first that applies decides. -/
def Obligations.OrderOfChecks : Prop :=
  ∀ (s : State) (v : Word) (rest : List HostEvent), s.pending = .write 0x000#12 4 v :: rest →
    if 256 ≤ v.toNat ∨ v.toNat = 0 ∨ 5 ≤ v.toNat then
      step s = .next { s with pending := rest, statusCode := .illegalCmd }
    else if v.toNat ≠ 3 ∧ 300 < s.bufLen.toNat then
      step s = .next { s with pending := rest, statusCode := .lenError }
    else if v.toNat = 4 ∧ s.bufLen.toNat < 15 then
      step s = .next { s with pending := rest, statusCode := .malformedFrame }
    else if v.toNat = 3 ∧ s.serialValid = false then
      step s = .next { s with pending := rest, statusCode := .configUnset }
    else if v.toNat ≠ 3 ∧ (List.range s.bufLen.toNat).any (fun j => !s.written j) = true then
      step s = .fault .unwrittenRead
    else
      ∃ t, step s = .next t ∧
        (t.statusCode = .ok ∨ (v.toNat = 4 ∧ (t.statusCode = .notFound ∨ t.statusCode = .checksumMismatch)))

/-! ### The CRC engine -/

/-- R68, R69: the CRC values the spec prints (95_test_vectors.md section 2.1). -/
def Obligations.PrintedCrcValues : Prop :=
  crc16Modbus [] = 0xFFFF#16 ∧
  crc16Modbus [0x01#8] = 0x807E#16 ∧
  crc16Modbus [0x01#8, 0x03#8, 0x00#8, 0x00#8, 0x00#8, 0x01#8] = 0x0A84#16 ∧
  crc16Modbus [0x31#8, 0x32#8, 0x33#8, 0x34#8, 0x35#8, 0x36#8, 0x37#8, 0x38#8, 0x39#8] = 0x4B37#16

/-- R70: a sequence followed by its own CRC, low byte first, has CRC 0. -/
def Obligations.CrcResidueIsZero : Prop :=
  ∀ bytes : List Byte,
    crc16Modbus (bytes ++ [(crc16Modbus bytes).extractLsb' 0 8, (crc16Modbus bytes).extractLsb' 8 8]) = 0x0000#16

/-- R72: the V5 checksum is the sum modulo 256 of the bytes 1 to n-3, 0 for n ≤ 3; in a request frame it takes in the
CRC bytes 32 and 33. -/
def Obligations.ChecksumIsTheSumOfTheBody : Prop :=
  (∀ bytes : List Byte,
    v5Checksum bytes = BitVec.ofNat 8 (∑ j ∈ Finset.Icc 1 (bytes.length - 3), (bytes.getD j 0#8).toNat)) ∧
  (∀ bytes : List Byte, bytes.length ≤ 3 → v5Checksum bytes = 0x00#8) ∧
  (∀ (sid seq : Byte) (addr cnt : Half) (ser : Word),
    (frame sid addr cnt ser seq)[34] =
      BitVec.ofNat 8 (∑ j : Fin 33, ((frame sid addr cnt ser seq)[j.val + 1]).toNat))

/-- R71: CRC16. -/
def Obligations.Crc16Command : Prop :=
  ∀ s : State,
    (300 < s.bufLen.toNat → exec .crc16 s = .next { s with statusCode := .lenError }) ∧
    (s.bufLen.toNat ≤ 300 → s.Unwritten → exec .crc16 s = .fault .unwrittenRead) ∧
    (∀ bytes, s.bufLen.toNat ≤ 300 → s.Holds bytes →
      exec .crc16 s = .next { s with crcResult := crc16Modbus bytes, statusCode := .ok })

/-- R73: V5SUM. -/
def Obligations.V5sumCommand : Prop :=
  ∀ s : State,
    (300 < s.bufLen.toNat → exec .v5sum s = .next { s with statusCode := .lenError }) ∧
    (s.bufLen.toNat ≤ 300 → s.Unwritten → exec .v5sum s = .fault .unwrittenRead) ∧
    (∀ bytes, s.bufLen.toNat ≤ 300 → s.Holds bytes →
      exec .v5sum s = .next { s with sumResult := v5Checksum bytes, statusCode := .ok })

/-! ### ENCODE -/

/-- R77, R79: ENCODE, with and without a configured SERIAL. -/
def Obligations.EncodeCommand : Prop :=
  ∀ s : State,
    (s.serialValid = false → exec .encode s = .next { s with statusCode := .configUnset }) ∧
    (s.serialValid = true → exec .encode s = .next { s with
      req := frame s.slaveId s.reqAddr s.reqCount s.serial s.seq
      seq := BitVec.ofNat 8 (s.seq.toNat + 1)
      statusCode := .ok })

/-- R75, R78, R81, R83: the frame ENCODE leaves in REQ, byte by byte, for every value of its five inputs (R84). -/
def Obligations.FrameLayout : Prop :=
  ∀ s : State, s.serialValid = true → ∃ t, exec .encode s = .next t ∧ t.statusCode = .ok ∧
    t.req[0] = 0xA5#8 ∧ t.req[1] = 0x17#8 ∧ t.req[2] = 0x00#8 ∧ t.req[3] = 0x10#8 ∧ t.req[4] = 0x45#8 ∧
    t.req[5] = s.seq ∧ t.req[6] = 0x00#8 ∧
    t.req[10] ++ t.req[9] ++ t.req[8] ++ t.req[7] = s.serial ∧
    t.req[11] = 0x02#8 ∧
    (∀ j : Fin 36, 12 ≤ j.val → j.val ≤ 25 → t.req[j] = 0x00#8) ∧
    t.req[26] = s.slaveId ∧ t.req[27] = 0x03#8 ∧
    t.req[28] ++ t.req[29] = s.reqAddr ∧ t.req[30] ++ t.req[31] = s.reqCount ∧
    t.req[33] ++ t.req[32] =
      crc16Modbus [t.req[26], t.req[27], t.req[28], t.req[29], t.req[30], t.req[31]] ∧
    t.req[34] = v5Checksum t.req.toList ∧
    t.req[34] = BitVec.ofNat 8 (∑ j : Fin 33, (t.req[j.val + 1]).toNat) ∧
    t.req[35] = 0x15#8

/-- R77: two ENCODEs with no register write between give frames that differ only in byte 5 and byte 34. -/
def Obligations.ConsecutiveFramesDifferInTwoBytes : Prop :=
  ∀ s : State, s.serialValid = true → ∃ t u, exec .encode s = .next t ∧ exec .encode t = .next u ∧
    (∀ j : Fin 36, j.val ≠ 5 → j.val ≠ 34 → u.req[j] = t.req[j]) ∧
    u.req[5] = t.req[5] + 1#8 ∧ u.req[34] = t.req[34] + 1#8

/-- R85: after every successful ENCODE the embedded CRC and the V5 checksum validate the frame. -/
def Obligations.EncodedFrameSelfValidates : Prop :=
  ∀ s t : State, exec .encode s = .next t → t.statusCode = .ok →
    crc16Modbus [t.req[26], t.req[27], t.req[28], t.req[29], t.req[30], t.req[31]] = t.req[33] ++ t.req[32] ∧
    v5Checksum t.req.toList = t.req[34]

/-! ### DECODE -/

/-- R87: the length checks, in this order; 15 is the shortest length that is scanned. -/
def Obligations.DecodeLengthChecks : Prop :=
  ∀ s : State,
    (300 < s.bufLen.toNat → exec .decode s = .next { s with statusCode := .lenError }) ∧
    (s.bufLen.toNat < 15 → exec .decode s = .next { s with statusCode := .malformedFrame }) ∧
    (15 ≤ s.bufLen.toNat → s.bufLen.toNat ≤ 300 → ∀ t, exec .decode s = .next t →
      t.statusCode = .ok ∨ t.statusCode = .notFound ∨ t.statusCode = .checksumMismatch)

/-- R98, R99: DECODE of a length it scans, over an unwritten byte, is the model's fault. -/
def Obligations.DecodeUnwrittenFaults : Prop :=
  ∀ s : State, 15 ≤ s.bufLen.toNat → s.bufLen.toNat ≤ 300 → s.Unwritten →
    exec .decode s = .fault .unwrittenRead

/-- R88, R89, R90, R92: the highest offset of the scan that holds a CRC-valid reply gives the result, its value
big-endian and its hint the top bit, whatever stands at the other offsets (R91). -/
def Obligations.DecodeReturnsTheHighestReply : Prop :=
  ∀ (s : State) (bytes : List Byte) (i : Nat) (hi lo : Byte),
    s.Holds bytes → 15 ≤ bytes.length → bytes.length ≤ 300 → InScan bytes.length i → ReplyAt bytes s.slaveId i hi lo →
    (∀ j, i < j → InScan bytes.length j → ∀ h l, ¬ ReplyAt bytes s.slaveId j h l) →
    exec .decode s = .next { s with
      resultValue := hi ++ lo
      resultSigned := decide (128 ≤ hi.toNat)
      statusCode := .ok }

/-- R91: a candidate whose CRC is wrong does not end the scan and is not accepted: with no valid reply at the other
offsets above it, the valid reply at a lower offset i is accepted although the one at j failed. -/
def Obligations.ScanContinuesPastCrcMismatch : Prop :=
  ∀ (s : State) (bytes : List Byte) (i j : Nat) (hi lo : Byte),
    s.Holds bytes → 15 ≤ bytes.length → bytes.length ≤ 300 →
    InScan bytes.length i → InScan bytes.length j → i < j →
    ReplyAt bytes s.slaveId i hi lo → FailedCrcAt bytes s.slaveId j →
    (∀ k, i < k → k ≠ j → InScan bytes.length k → ∀ h l, ¬ ReplyAt bytes s.slaveId k h l) →
    exec .decode s = .next { s with
      resultValue := hi ++ lo
      resultSigned := decide (128 ≤ hi.toNat)
      statusCode := .ok }

/-- R94: where no offset of the scan holds a reply, STATUS alone is written: CHECKSUM_MISMATCH if
P_CRC_MISMATCH_DISTINCT and some candidate failed its CRC, NOT_FOUND otherwise. For each value of the parameter. -/
def Obligations.DecodeWithoutReplyFails : Prop :=
  ∀ (s : State) (bytes : List Byte), s.Holds bytes → 15 ≤ bytes.length → bytes.length ≤ 300 →
    (∀ i, InScan bytes.length i → ∀ hi lo, ¬ ReplyAt bytes s.slaveId i hi lo) →
    execDecodeWith false s = .next { s with statusCode := .notFound } ∧
    ((∃ i, InScan bytes.length i ∧ FailedCrcAt bytes s.slaveId i) →
      execDecodeWith true s = .next { s with statusCode := .checksumMismatch }) ∧
    ((∀ i, InScan bytes.length i → ¬ FailedCrcAt bytes s.slaveId i) →
      execDecodeWith true s = .next { s with statusCode := .notFound }) ∧
    exec .decode s = execDecodeWith Config.crcMismatchDistinct s

/-- R95: only the bytes 5 to n-2 influence DECODE: two blocks whose buffers agree there end with the same status and,
if it is OK, the same result. -/
def Obligations.DecodeReadsOnlyTheScannedBytes : Prop :=
  ∀ (s s' : State) (bytes bytes' : List Byte), s.Holds bytes → s'.Holds bytes' →
    s'.bufLen = s.bufLen → s'.slaveId = s.slaveId → s.bufLen.toNat ≤ 300 →
    (∀ j, 5 ≤ j → j + 2 ≤ bytes.length → bytes'[j]? = bytes[j]?) →
    ∃ t t', exec .decode s = .next t ∧ exec .decode s' = .next t' ∧ t'.statusCode = t.statusCode ∧
      (t.statusCode = .ok → t'.resultValue = t.resultValue ∧ t'.resultSigned = t.resultSigned)

/-! ### Whole-machine rules -/

/-- R71, R95: CRC16, V5SUM and DECODE can be repeated with the same result. -/
def Obligations.RepeatedCommandsAgree : Prop :=
  ∀ (i : Instr) (s t : State), i ≠ .encode → exec i s = .next t → exec i t = .next t

/-- R48: no command reads a byte of BUF at or above BUF_LEN: with any other such bytes it does the same. -/
def Obligations.BytesBeyondBufLenNeverMatter : Prop :=
  ∀ (i : Instr) (s : State) (m : List Host.Cell),
    (∀ j, j < s.bufLen.toNat → Memory.lookup m j = Memory.lookup s.buf j) →
    (∀ t, exec i s = .next t → exec i { s with buf := m } = .next { t with buf := m }) ∧
    (∀ f, exec i s = .fault f → exec i { s with buf := m } = .fault f)

/-- R22, R79: while SERIAL_VALID = 0 only a host read of SERIAL shows SERIAL, whose reset value the model chose (log
entries 3 and 5), and only in what it returns: no command, no status and no other access depends on it. -/
def Obligations.UnsetSerialIsSeenOnlyByItsRead : Prop :=
  ∀ (s : State) (w : Word), s.serialValid = false →
    (∀ t, step s = .next t → ∃ t', step { s with serial := w } = .next t' ∧
      { t' with serial := t.serial, readData := t.readData } = t ∧
      (t.serialValid = true → t' = t) ∧
      ((∀ rest, s.pending ≠ .read 0x00C#12 4 :: rest) → t'.readData = t.readData)) ∧
    (∀ f, step s = .fault f → step { s with serial := w } = .fault f) ∧
    (∀ r, step s = .refused r → step { s with serial := w } = .refused r)

/-- R33, R83, R85: REQ is always as reset left it or a complete request frame that validates itself. -/
def Obligations.RequestIsBlankOrComplete : Prop :=
  ∀ s t : State, s.RequestInv → step s = .next t → t.RequestInv

/-- R33: reset meets the invariant of RequestIsBlankOrComplete (REQ's reset bytes are stated by ResetValues). -/
def Obligations.ResetRequestInvariant : Prop := State.reset.RequestInv

/-- R34: every step keeps the cells of BUF in canonical form and inside BUF[0..299]. -/
def Obligations.BufferStaysCanonical : Prop :=
  ∀ s t : State, s.BufInv → step s = .next t → t.BufInv

/-- R34, R35: reset's BUF has the canonical form, with no byte written. -/
def Obligations.ResetBufferInvariant : Prop :=
  State.reset.BufInv ∧ ∀ j, State.reset.written j = false

/-- R37: the reset values the spec gives; SERIAL and BUF are unspecified and nothing is said of SERIAL's value. -/
def Obligations.ResetValues : Prop :=
  State.reset.slaveId = 0x01#8 ∧ State.reset.seq = 0x45#8 ∧ State.reset.serialValid = false ∧
  State.reset.reqAddr = 0x0000#16 ∧ State.reset.reqCount = 0x0001#16 ∧ State.reset.bufLen.toNat = 0 ∧
  State.reset.statusCode.code = 0x7#4 ∧ State.reset.resultValue = 0x0000#16 ∧ State.reset.resultSigned = false ∧
  State.reset.crcResult = 0x0000#16 ∧ State.reset.sumResult = 0x00#8 ∧
  (∀ j : Fin 36, State.reset.req[j] = 0x00#8) ∧ (∀ j, State.reset.bufByte j = none)

/-- R107: the reset input, asserted in any state, gives every register the reset value the spec states (none for
SERIAL) and unmarks every byte of BUF. That what the host will do next stays pending is the model's choice (log entry
11). -/
def Obligations.ResetInputFromAnyState : Prop :=
  ∀ (s : State) (rest : List HostEvent), s.pending = .reset :: rest → ∃ t, step s = .next t ∧
    t.slaveId = 0x01#8 ∧ t.seq = 0x45#8 ∧ t.serialValid = false ∧ t.reqAddr = 0x0000#16 ∧ t.reqCount = 0x0001#16 ∧
    t.bufLen.toNat = 0 ∧ t.statusCode = .noCommand ∧ t.resultValue = 0x0000#16 ∧ t.resultSigned = false ∧
    t.crcResult = 0x0000#16 ∧ t.sumResult = 0x00#8 ∧ (∀ j : Fin 36, t.req[j] = 0x00#8) ∧
    (∀ j, t.written j = false) ∧ t.pending = rest

/-- R67, R48: carrying out `loadbuf` on at most 300 bytes leaves them in BUF[0, n) with BUF_LEN = n, leaves the bytes
beyond the last word alone, and changes nothing else. -/
def Obligations.LoadbufFillsTheBuffer : Prop :=
  ∀ (s : State) (bytes : List Byte) (rest : List HostEvent), bytes.length ≤ 300 →
    s.pending = loadbuf bytes ++ rest →
    ∃ t, core.run (loadbuf bytes).length s = .next t ∧ t.Holds bytes ∧ t.bufLen.toNat = bytes.length ∧
      (∀ j, 4 * ((bytes.length + 3) / 4) ≤ j → t.bufByte j = s.bufByte j) ∧
      { t with buf := s.buf, bufLen := s.bufLen } = { s with pending := rest }
end

