-- ==== Sys2Proof/Laws/Memory.lean ====
section
/-! SUPPORT. The laws of the byte memory behind BUF: read after write, and the canonical form. -/

namespace Sys2Proof.Machine

@[simp] theorem Memory.lookup_nil (a : Nat) : Memory.lookup [] a = none := rfl

theorem Memory.lookup_cons (c : Host.Cell) (rest : List Host.Cell) (a : Nat) :
    Memory.lookup (c :: rest) a = if a = c.1 then some c.2 else Memory.lookup rest a := rfl

/-- A read after a write to the same address gives the byte written. -/
@[simp] theorem Memory.lookup_insert_same (m : List Host.Cell) (a : Nat) (v : Byte) :
    Memory.lookup (Memory.insert m a v) a = some v := by
  induction m with
  | nil => simp [Memory.insert, Memory.lookup]
  | cons c rest ih =>
    obtain ⟨k, b⟩ := c
    simp only [Memory.insert]
    split
    · simp [Memory.lookup]
    · split
      · simp [Memory.lookup]
      · rename_i h
        simp [Memory.lookup, h, ih]

/-- A write leaves every other address alone. -/
theorem Memory.lookup_insert_ne (m : List Host.Cell) {a b : Nat} (v : Byte) (h : b ≠ a) :
    Memory.lookup (Memory.insert m a v) b = Memory.lookup m b := by
  induction m with
  | nil => simp [Memory.insert, Memory.lookup, h]
  | cons c rest ih =>
    obtain ⟨k, w⟩ := c
    simp only [Memory.insert]
    split
    · simp [Memory.lookup, h]
    · split
      · rename_i hk
        subst hk
        simp [Memory.lookup, h]
      · simp only [Memory.lookup]
        split
        · rfl
        · exact ih

theorem Memory.lookup_insert (m : List Host.Cell) (a b : Nat) (v : Byte) :
    Memory.lookup (Memory.insert m a v) b = if b = a then some v else Memory.lookup m b := by
  split
  · subst b
    exact Memory.lookup_insert_same m a v
  · rename_i h
    exact Memory.lookup_insert_ne m v h

/-- A write inside the bounds keeps the canonical form. -/
theorem Memory.insert_wfFrom (hi : Nat) (m : List Host.Cell) (a : Nat) (v : Byte) (ha : a < hi) :
    ∀ lo, lo ≤ a → Memory.wfFrom hi lo m = true → Memory.wfFrom hi lo (Memory.insert m a v) = true := by
  induction m with
  | nil =>
    intro lo hlo _
    simp [Memory.insert, Memory.wfFrom, hlo, ha]
  | cons c rest ih =>
    obtain ⟨k, b⟩ := c
    intro lo hlo h
    simp only [Memory.wfFrom, Bool.and_eq_true, decide_eq_true_eq] at h
    obtain ⟨⟨hk, hkh⟩, hrest⟩ := h
    simp only [Memory.insert]
    split
    · rename_i hak
      simp [Memory.wfFrom, hlo, ha, hkh, hrest]
      omega
    · split
      · rename_i hak
        subst hak
        simp [Memory.wfFrom, hlo, ha, hrest]
      · rename_i h1 h2
        simp only [Memory.wfFrom, Bool.and_eq_true, decide_eq_true_eq]
        exact ⟨⟨hk, hkh⟩, ih (k + 1) (by omega) hrest⟩

/-- Every write of a BUF byte keeps the canonical form. -/
theorem Memory.insert_wf (m : List Host.Cell) (a : Nat) (v : Byte) (ha : a < Config.bufMax)
    (h : Memory.wf m = true) : Memory.wf (Memory.insert m a v) = true :=
  Memory.insert_wfFrom Config.bufMax m a v ha 0 (Nat.zero_le a) h

/-- A host write of a BUF word keeps the canonical form. -/
theorem State.writeBufWord_wf (s : State) (k : Nat) (v : Word) (hk : k < 75) (h : Memory.wf s.buf = true) :
    Memory.wf (s.writeBufWord k v).buf = true := by
  have hb : Config.bufMax = 300 := rfl
  refine Memory.insert_wf _ _ _ (by omega) (Memory.insert_wf _ _ _ (by omega)
    (Memory.insert_wf _ _ _ (by omega) (Memory.insert_wf _ _ _ (by omega) h)))

/-- Reset's memory has the canonical form. -/
theorem Memory.reset_wf : Memory.wf State.reset.buf = true := rfl

/-- What a host write of BUF word k does to each byte of BUF. -/
theorem State.bufByte_writeBufWord (s : State) (k : Nat) (v : Word) (j : Nat) :
    (s.writeBufWord k v).bufByte j =
      if 4 * k ≤ j ∧ j < 4 * k + 4 then some (byteOf v (j - 4 * k)) else s.bufByte j := by
  simp only [State.bufByte, State.writeBufWord, Memory.lookup_insert]
  by_cases h3 : j = 4 * k + 3
  · subst h3; simp
  by_cases h2 : j = 4 * k + 2
  · subst h2; simp
  by_cases h1 : j = 4 * k + 1
  · subst h1; simp
  by_cases h0 : j = 4 * k
  · subst h0; simp
  · rw [if_neg h3, if_neg h2, if_neg h1, if_neg h0, if_neg (by omega)]

/-- Reading a range gives bytes exactly where each of its bytes is written, and then those. -/
theorem Memory.readRange_eq_some (m : List Host.Cell) :
    ∀ (n start : Nat) (bytes : List Byte), Memory.readRange m start n = some bytes ↔
      bytes.length = n ∧ ∀ j, j < bytes.length → Memory.lookup m (start + j) = bytes[j]? := by
  intro n
  induction n with
  | zero =>
    intro start bytes
    constructor
    · intro h
      simp only [Memory.readRange, Option.some.injEq] at h
      subst h
      simp
    · rintro ⟨h, _⟩
      have : bytes = [] := List.length_eq_zero_iff.mp h
      subst this
      rfl
  | succ n ih =>
    intro start bytes
    simp only [Memory.readRange]
    constructor
    · intro h
      split at h
      · rename_i b bs hb hbs
        simp only [Option.some.injEq] at h
        subst h
        obtain ⟨hl, hj⟩ := (ih (start + 1) bs).mp hbs
        refine ⟨by simp [hl], fun j hjl => ?_⟩
        cases j with
        | zero => simpa using hb
        | succ j =>
          have := hj j (by simpa using hjl)
          rw [show start + (j + 1) = start + 1 + j by omega, this]
          simp
      · cases h
    · rintro ⟨hl, hj⟩
      cases bytes with
      | nil => simp at hl
      | cons b bs =>
        have h0 : Memory.lookup m start = some b := by simpa using hj 0 (by simp)
        have hr : Memory.readRange m (start + 1) n = some bs := by
          refine (ih (start + 1) bs).mpr ⟨by simpa using hl, fun j hjl => ?_⟩
          have := hj (j + 1) (by simpa using hjl)
          rw [show start + 1 + j = start + (j + 1) by omega, this]
          simp
        rw [h0, hr]

/-- Reading a range fails exactly where one of its bytes is unwritten. -/
theorem Memory.readRange_eq_none (m : List Host.Cell) :
    ∀ (n start : Nat), Memory.readRange m start n = none ↔
      ∃ j, j < n ∧ Memory.lookup m (start + j) = none := by
  intro n
  induction n with
  | zero => intro start; simp [Memory.readRange]
  | succ n ih =>
    intro start
    simp only [Memory.readRange]
    constructor
    · intro h
      cases h0 : Memory.lookup m start with
      | none => exact ⟨0, by omega, by simpa using h0⟩
      | some b =>
        cases hr : Memory.readRange m (start + 1) n with
        | none =>
          obtain ⟨j, hj, hn⟩ := (ih (start + 1)).mp hr
          exact ⟨j + 1, by omega, by rw [show start + (j + 1) = start + 1 + j by omega]; exact hn⟩
        | some bs => simp [h0, hr] at h
    · rintro ⟨j, hj, hn⟩
      cases j with
      | zero =>
        have h0 : Memory.lookup m start = none := by simpa using hn
        simp [h0]
      | succ j =>
        have hr : Memory.readRange m (start + 1) n = none :=
          (ih (start + 1)).mpr ⟨j, by omega, by rw [show start + 1 + j = start + (j + 1) by omega]; exact hn⟩
        simp [hr]

/-- `bufBytes` answers exactly the bytes BUF[0, BUF_LEN) holds. -/
theorem State.bufBytes_eq_some (s : State) (bytes : List Byte) :
    s.bufBytes s.bufLen.toNat = some bytes ↔ s.Holds bytes := by
  simp only [State.bufBytes, Memory.readRange_eq_some, Nat.zero_add]
  rfl

/-- `bufBytes` answers nothing exactly where a byte of BUF[0, BUF_LEN) is unwritten. -/
theorem State.bufBytes_eq_none (s : State) : s.bufBytes s.bufLen.toNat = none ↔ s.Unwritten := by
  simp [State.bufBytes, Memory.readRange_eq_none, State.Unwritten, State.written, State.bufByte]

end Sys2Proof.Machine
end

