-- ==== Sys2Proof/Laws/State.lean ====
section
/-! SUPPORT. One lemma per field per named update of State, so that no proof unfolds a record update. -/

namespace Sys2Proof.Machine

/-! ### STATUS.CODE <- c -/

@[simp] theorem State.setStatus_slaveId (s : State) (c : StatusCode) : (s.setStatus c).slaveId = s.slaveId := rfl
@[simp] theorem State.setStatus_serial (s : State) (c : StatusCode) : (s.setStatus c).serial = s.serial := rfl
@[simp] theorem State.setStatus_serialValid (s : State) (c : StatusCode) : (s.setStatus c).serialValid = s.serialValid := rfl
@[simp] theorem State.setStatus_seq (s : State) (c : StatusCode) : (s.setStatus c).seq = s.seq := rfl
@[simp] theorem State.setStatus_reqAddr (s : State) (c : StatusCode) : (s.setStatus c).reqAddr = s.reqAddr := rfl
@[simp] theorem State.setStatus_reqCount (s : State) (c : StatusCode) : (s.setStatus c).reqCount = s.reqCount := rfl
@[simp] theorem State.setStatus_bufLen (s : State) (c : StatusCode) : (s.setStatus c).bufLen = s.bufLen := rfl
@[simp] theorem State.setStatus_statusCode (s : State) (c : StatusCode) : (s.setStatus c).statusCode = c := rfl
@[simp] theorem State.setStatus_resultValue (s : State) (c : StatusCode) : (s.setStatus c).resultValue = s.resultValue := rfl
@[simp] theorem State.setStatus_resultSigned (s : State) (c : StatusCode) : (s.setStatus c).resultSigned = s.resultSigned := rfl
@[simp] theorem State.setStatus_crcResult (s : State) (c : StatusCode) : (s.setStatus c).crcResult = s.crcResult := rfl
@[simp] theorem State.setStatus_sumResult (s : State) (c : StatusCode) : (s.setStatus c).sumResult = s.sumResult := rfl
@[simp] theorem State.setStatus_req (s : State) (c : StatusCode) : (s.setStatus c).req = s.req := rfl
@[simp] theorem State.setStatus_buf (s : State) (c : StatusCode) : (s.setStatus c).buf = s.buf := rfl
@[simp] theorem State.setStatus_readData (s : State) (c : StatusCode) : (s.setStatus c).readData = s.readData := rfl
@[simp] theorem State.setStatus_pending (s : State) (c : StatusCode) : (s.setStatus c).pending = s.pending := rfl

/-! ### A host write of a BUF word -/

@[simp] theorem State.writeBufWord_slaveId (s : State) (k : Nat) (v : Word) :
    (s.writeBufWord k v).slaveId = s.slaveId := rfl
@[simp] theorem State.writeBufWord_serial (s : State) (k : Nat) (v : Word) :
    (s.writeBufWord k v).serial = s.serial := rfl
@[simp] theorem State.writeBufWord_serialValid (s : State) (k : Nat) (v : Word) :
    (s.writeBufWord k v).serialValid = s.serialValid := rfl
@[simp] theorem State.writeBufWord_seq (s : State) (k : Nat) (v : Word) :
    (s.writeBufWord k v).seq = s.seq := rfl
@[simp] theorem State.writeBufWord_reqAddr (s : State) (k : Nat) (v : Word) :
    (s.writeBufWord k v).reqAddr = s.reqAddr := rfl
@[simp] theorem State.writeBufWord_reqCount (s : State) (k : Nat) (v : Word) :
    (s.writeBufWord k v).reqCount = s.reqCount := rfl
@[simp] theorem State.writeBufWord_bufLen (s : State) (k : Nat) (v : Word) :
    (s.writeBufWord k v).bufLen = s.bufLen := rfl
@[simp] theorem State.writeBufWord_statusCode (s : State) (k : Nat) (v : Word) :
    (s.writeBufWord k v).statusCode = s.statusCode := rfl
@[simp] theorem State.writeBufWord_resultValue (s : State) (k : Nat) (v : Word) :
    (s.writeBufWord k v).resultValue = s.resultValue := rfl
@[simp] theorem State.writeBufWord_resultSigned (s : State) (k : Nat) (v : Word) :
    (s.writeBufWord k v).resultSigned = s.resultSigned := rfl
@[simp] theorem State.writeBufWord_crcResult (s : State) (k : Nat) (v : Word) :
    (s.writeBufWord k v).crcResult = s.crcResult := rfl
@[simp] theorem State.writeBufWord_sumResult (s : State) (k : Nat) (v : Word) :
    (s.writeBufWord k v).sumResult = s.sumResult := rfl
@[simp] theorem State.writeBufWord_req (s : State) (k : Nat) (v : Word) :
    (s.writeBufWord k v).req = s.req := rfl
@[simp] theorem State.writeBufWord_readData (s : State) (k : Nat) (v : Word) :
    (s.writeBufWord k v).readData = s.readData := rfl
@[simp] theorem State.writeBufWord_pending (s : State) (k : Nat) (v : Word) :
    (s.writeBufWord k v).pending = s.pending := rfl

/-! ### The reset input -/

@[simp] theorem State.applyReset_slaveId (s : State) : s.applyReset.slaveId = State.reset.slaveId := rfl
@[simp] theorem State.applyReset_serial (s : State) : s.applyReset.serial = State.reset.serial := rfl
@[simp] theorem State.applyReset_serialValid (s : State) : s.applyReset.serialValid = State.reset.serialValid := rfl
@[simp] theorem State.applyReset_seq (s : State) : s.applyReset.seq = State.reset.seq := rfl
@[simp] theorem State.applyReset_reqAddr (s : State) : s.applyReset.reqAddr = State.reset.reqAddr := rfl
@[simp] theorem State.applyReset_reqCount (s : State) : s.applyReset.reqCount = State.reset.reqCount := rfl
@[simp] theorem State.applyReset_bufLen (s : State) : s.applyReset.bufLen = State.reset.bufLen := rfl
@[simp] theorem State.applyReset_statusCode (s : State) : s.applyReset.statusCode = State.reset.statusCode := rfl
@[simp] theorem State.applyReset_resultValue (s : State) : s.applyReset.resultValue = State.reset.resultValue := rfl
@[simp] theorem State.applyReset_resultSigned (s : State) : s.applyReset.resultSigned = State.reset.resultSigned := rfl
@[simp] theorem State.applyReset_crcResult (s : State) : s.applyReset.crcResult = State.reset.crcResult := rfl
@[simp] theorem State.applyReset_sumResult (s : State) : s.applyReset.sumResult = State.reset.sumResult := rfl
@[simp] theorem State.applyReset_req (s : State) : s.applyReset.req = State.reset.req := rfl
@[simp] theorem State.applyReset_buf (s : State) : s.applyReset.buf = State.reset.buf := rfl
@[simp] theorem State.applyReset_readData (s : State) : s.applyReset.readData = s.readData := rfl
@[simp] theorem State.applyReset_pending (s : State) : s.applyReset.pending = s.pending := rfl

/-! ### A host write of a register: BUF, REQ, the results, the status and the host's side never change -/

@[simp] theorem State.writeReg_statusCode (s : State) (v : Word) (r : Reg) : (s.writeReg v r).statusCode = s.statusCode := by
  cases r <;> rfl
@[simp] theorem State.writeReg_resultValue (s : State) (v : Word) (r : Reg) : (s.writeReg v r).resultValue = s.resultValue := by
  cases r <;> rfl
@[simp] theorem State.writeReg_resultSigned (s : State) (v : Word) (r : Reg) : (s.writeReg v r).resultSigned = s.resultSigned := by
  cases r <;> rfl
@[simp] theorem State.writeReg_crcResult (s : State) (v : Word) (r : Reg) : (s.writeReg v r).crcResult = s.crcResult := by
  cases r <;> rfl
@[simp] theorem State.writeReg_sumResult (s : State) (v : Word) (r : Reg) : (s.writeReg v r).sumResult = s.sumResult := by
  cases r <;> rfl
@[simp] theorem State.writeReg_req (s : State) (v : Word) (r : Reg) : (s.writeReg v r).req = s.req := by
  cases r <;> rfl
@[simp] theorem State.writeReg_buf (s : State) (v : Word) (r : Reg) : (s.writeReg v r).buf = s.buf := by
  cases r <;> rfl
@[simp] theorem State.writeReg_readData (s : State) (v : Word) (r : Reg) : (s.writeReg v r).readData = s.readData := by
  cases r <;> rfl
@[simp] theorem State.writeReg_pending (s : State) (v : Word) (r : Reg) : (s.writeReg v r).pending = s.pending := by
  cases r <;> rfl

end Sys2Proof.Machine
end

