-- ==== Sys2Proof/Laws/Commands.lean ====
section
/-! SUPPORT. What each shared operation of the commands can do, said once: the buffer operand, and the shape of every
command's answer. -/

namespace Sys2Proof.Machine

/-- LEN_ERROR comes first (R98). -/
theorem withBuffer_tooLong (minLen : Nat) (s : State) (k : List Byte → State) (h : 300 < s.bufLen.toNat) :
    withBuffer minLen s k = .next (s.setStatus .lenError) := by
  simp [withBuffer, Config.bufMax, h, raiseStatus]

/-- MALFORMED_FRAME comes second (R98). -/
theorem withBuffer_tooShort (minLen : Nat) (s : State) (k : List Byte → State) (h : s.bufLen.toNat ≤ 300)
    (hm : s.bufLen.toNat < minLen) : withBuffer minLen s k = .next (s.setStatus .malformedFrame) := by
  simp [withBuffer, Config.bufMax, Nat.not_lt.mpr h, hm, raiseStatus]

/-- The UnwrittenRead check comes third (R98). -/
theorem withBuffer_unwritten (minLen : Nat) (s : State) (k : List Byte → State) (h : s.bufLen.toNat ≤ 300)
    (hm : minLen ≤ s.bufLen.toNat) (hu : s.Unwritten) : withBuffer minLen s k = .fault .unwrittenRead := by
  simp [withBuffer, Config.bufMax, Nat.not_lt.mpr h, Nat.not_lt.mpr hm, (State.bufBytes_eq_none s).mpr hu,
    raiseUnwrittenRead]

/-- Otherwise the command runs on the bytes BUF[0, BUF_LEN) holds. -/
theorem withBuffer_holds (minLen : Nat) (s : State) (k : List Byte → State) (bytes : List Byte)
    (h : s.bufLen.toNat ≤ 300) (hm : minLen ≤ s.bufLen.toNat) (hb : s.Holds bytes) :
    withBuffer minLen s k = .next (k bytes) := by
  simp [withBuffer, Config.bufMax, Nat.not_lt.mpr h, Nat.not_lt.mpr hm, (State.bufBytes_eq_some s bytes).mpr hb]

/-- BUF[0, BUF_LEN) either has an unwritten byte or holds some bytes. -/
theorem State.unwritten_or_holds (s : State) : s.Unwritten ∨ ∃ bytes, s.Holds bytes := by
  cases h : s.bufBytes s.bufLen.toNat with
  | none => exact .inl ((State.bufBytes_eq_none s).mp h)
  | some bytes => exact .inr ⟨bytes, (State.bufBytes_eq_some s bytes).mp h⟩

/-- The bytes BUF[0, BUF_LEN) holds are unique. -/
theorem State.Holds.unique {s : State} {b1 b2 : List Byte} (h1 : s.Holds b1) (h2 : s.Holds b2) : b1 = b2 := by
  have e1 := (State.bufBytes_eq_some s b1).mpr h1
  have e2 := (State.bufBytes_eq_some s b2).mpr h2
  rw [e1] at e2
  exact Option.some.inj e2

/-- A buffer that holds bytes has no unwritten byte. -/
theorem State.Holds.not_unwritten {s : State} {bytes : List Byte} (h : s.Holds bytes) : ¬ s.Unwritten := by
  intro hu
  have e1 := (State.bufBytes_eq_some s bytes).mpr h
  rw [(State.bufBytes_eq_none s).mpr hu] at e1
  cases e1

/-- Everything `withBuffer` can answer. -/
theorem withBuffer_cases (minLen : Nat) (s : State) (k : List Byte → State) :
    (300 < s.bufLen.toNat ∧ withBuffer minLen s k = .next (s.setStatus .lenError)) ∨
    (s.bufLen.toNat ≤ 300 ∧ s.bufLen.toNat < minLen ∧
      withBuffer minLen s k = .next (s.setStatus .malformedFrame)) ∨
    (s.bufLen.toNat ≤ 300 ∧ minLen ≤ s.bufLen.toNat ∧ s.Unwritten ∧
      withBuffer minLen s k = .fault .unwrittenRead) ∨
    (∃ bytes, s.bufLen.toNat ≤ 300 ∧ minLen ≤ s.bufLen.toNat ∧ s.Holds bytes ∧
      withBuffer minLen s k = .next (k bytes)) := by
  by_cases h : 300 < s.bufLen.toNat
  · exact .inl ⟨h, withBuffer_tooLong minLen s k h⟩
  have h' : s.bufLen.toNat ≤ 300 := by omega
  by_cases hm : s.bufLen.toNat < minLen
  · exact .inr (.inl ⟨h', hm, withBuffer_tooShort minLen s k h' hm⟩)
  have hm' : minLen ≤ s.bufLen.toNat := by omega
  rcases s.unwritten_or_holds with hu | ⟨bytes, hb⟩
  · exact .inr (.inr (.inl ⟨h', hm', hu, withBuffer_unwritten minLen s k h' hm' hu⟩))
  · exact .inr (.inr (.inr ⟨bytes, h', hm', hb, withBuffer_holds minLen s k bytes h' hm' hb⟩))

/-- Everything a finished scan does to the state. -/
theorem State.finishDecode_cases (s : State) (distinct : Bool) (r : ScanResult) :
    (∃ hi lo, r = .found hi lo ∧ s.finishDecode distinct r =
      { s with resultValue := packHalf hi lo, resultSigned := signHint hi, statusCode := .ok }) ∨
    (r = .exhausted true ∧ distinct = true ∧ s.finishDecode distinct r = s.setStatus .checksumMismatch) ∨
    (∃ f, r = .exhausted f ∧ (distinct && f) = false ∧ s.finishDecode distinct r = s.setStatus .notFound) := by
  cases r with
  | found hi lo => exact .inl ⟨hi, lo, rfl, rfl⟩
  | exhausted f =>
    cases distinct <;> cases f
    · exact .inr (.inr ⟨_, rfl, rfl, rfl⟩)
    · exact .inr (.inr ⟨_, rfl, rfl, rfl⟩)
    · exact .inr (.inr ⟨_, rfl, rfl, rfl⟩)
    · exact .inr (.inl ⟨rfl, rfl, rfl⟩)

end Sys2Proof.Machine
end

