-- ==== Sys2Proof/Laws/Crc.lean ====
section
/-! SUPPORT. The CRC step on a byte that cancels, the V5 checksum as a sum, and packing and taking apart of values. -/

namespace Sys2Proof.Machine

/-- Where bit 0 is clear, a shift is a plain shift (R68). -/
theorem crcShift_even (c : Half) (h : c.getLsbD 0 = false) : crcShift c = c >>> 1 := by
  unfold crcShift
  rw [h]
  rfl

/-- Where the low bits are clear, so many shifts are a plain shift. -/
theorem crcShifts_low (n : Nat) : ∀ c : Half, (∀ i, i < n → c.getLsbD i = false) → crcShifts n c = c >>> n := by
  induction n with
  | zero => intro c _; simp [crcShifts]
  | succ n ih =>
    intro c h
    rw [crcShifts, crcShift_even c (h 0 (by omega)), ih]
    · rw [← BitVec.shiftRight_add, Nat.add_comm]
    · intro i hi
      rw [BitVec.getLsbD_ushiftRight]
      exact h (1 + i) (by omega)

/-- Adding bytes up is adding their values up, modulo 256 (R74). -/
theorem foldl_add_eq_sum (l : List Byte) :
    ∀ a : Byte, l.foldl (· + ·) a = a + BitVec.ofNat 8 ((l.map BitVec.toNat).sum) := by
  induction l with
  | nil => intro a; simp
  | cons b l ih =>
    intro a
    simp only [List.foldl_cons, ih, List.map_cons, List.sum_cons]
    rw [BitVec.ofNat_add, BitVec.add_assoc]
    simp

/-- The two bytes of a 16-bit value make it up. -/
theorem half_bytes (a : Half) : byteOf a 1 ++ byteOf a 0 = a := by
  apply BitVec.eq_of_getLsbD_eq
  intro i hi
  refine (BitVec.getLsbD_append (x := byteOf a 1) (y := byteOf a 0) (i := i)).trans ?_
  simp only [byteOf, BitVec.getLsbD_extractLsb']
  split
  · rename_i h
    simp [h]
  · have h : i - 8 < 8 := by omega
    simp [h, show 8 + (i - 8) = i by omega]

/-- The bits of a packed word by byte (R44). -/
theorem packWord_getLsbD (b0 b1 b2 b3 : Byte) (i : Nat) :
    (packWord b0 b1 b2 b3).getLsbD i =
      if i < 8 then b0.getLsbD i
      else if i - 8 < 8 then b1.getLsbD (i - 8)
      else if i - 8 - 8 < 8 then b2.getLsbD (i - 8 - 8)
      else b3.getLsbD (i - 8 - 8 - 8) := by
  rw [← BitVec.getLsbD_append, ← BitVec.getLsbD_append]
  exact BitVec.getLsbD_append (x := b3 ++ b2 ++ b1) (y := b0) (i := i)

/-- Packing the four bytes of a word gives it back (R44). -/
theorem packWord_byteOf (v : Word) : packWord (byteOf v 0) (byteOf v 1) (byteOf v 2) (byteOf v 3) = v := by
  apply BitVec.eq_of_getLsbD_eq
  intro i hi
  rw [packWord_getLsbD]
  simp only [byteOf, BitVec.getLsbD_extractLsb']
  split
  · rename_i h
    simp [h]
  · split
    · rename_i h
      simp [h, show 8 + (i - 8) = i by omega]
    · split
      · rename_i h
        simp [h, show 16 + (i - 8 - 8) = i by omega]
      · have h : i - 8 - 8 - 8 < 8 := by omega
        simp [h, show 24 + (i - 8 - 8 - 8) = i by omega]

/-- The bytes of a packed word (R44). -/
theorem byteOf_packWord (b0 b1 b2 b3 : Byte) :
    byteOf (packWord b0 b1 b2 b3) 0 = b0 ∧ byteOf (packWord b0 b1 b2 b3) 1 = b1 ∧
    byteOf (packWord b0 b1 b2 b3) 2 = b2 ∧ byteOf (packWord b0 b1 b2 b3) 3 = b3 := by
  refine ⟨?_, ?_, ?_, ?_⟩ <;> apply BitVec.eq_of_getLsbD_eq <;> intro i hi <;>
    simp only [byteOf, BitVec.getLsbD_extractLsb', packWord_getLsbD, hi]
  · simp [hi]
  · rw [if_neg (by omega), if_pos (by omega)]
    simp
  · rw [if_neg (by omega), if_neg (by omega), if_pos (by omega)]
    simp [show 16 + i - 8 - 8 = i by omega]
  · rw [if_neg (by omega), if_neg (by omega), if_neg (by omega)]
    simp [show 24 + i - 8 - 8 - 8 = i by omega]

/-- A byte of REQ is that entry of the frame (R33). -/
theorem State.reqByte_eq (s : State) (j : Nat) (h : j < 36) : s.reqByte j = s.req[j] := by
  simp [State.reqByte, List.getD, h]

/-- A word of BUF reads nothing exactly where one of its bytes is unwritten (R46). -/
theorem State.bufWord_eq_none (s : State) (k : Nat) :
    s.bufWord k = none ↔ (s.written (4 * k) = false ∨ s.written (4 * k + 1) = false ∨
      s.written (4 * k + 2) = false ∨ s.written (4 * k + 3) = false) := by
  unfold State.bufWord State.written
  cases s.bufByte (4 * k) <;> cases s.bufByte (4 * k + 1) <;> cases s.bufByte (4 * k + 2) <;>
    cases s.bufByte (4 * k + 3) <;> simp

/-- The checksum of a frame does not read its byte 34 (R76). -/
theorem v5Checksum_frameLayout (sid : Byte) (addr cnt : Half) (ser : Word) (seq : Byte) (c : Half) (x y : Byte) :
    v5Checksum (frameLayout sid addr cnt ser seq c x).toList =
      v5Checksum (frameLayout sid addr cnt ser seq c y).toList := rfl

end Sys2Proof.Machine
end

