-- ==== Sys2Proof/Laws/Decoder.lean ====
section
/-! SUPPORT. The verdict on one offset and the result of the scan, in the terms of Safety.lean. -/

namespace Sys2Proof.Machine

theorem byteAt_eq {bytes : List Byte} {j : Nat} {b : Byte} (h : bytes[j]? = some b) : byteAt bytes j = b := by
  simp [byteAt, List.getD, h]

theorem getElem?_byteAt {bytes : List Byte} {j : Nat} (h : j < bytes.length) : bytes[j]? = some (byteAt bytes j) := by
  simp [byteAt, List.getD, h]

/-- Inside the input, the span is its five bytes. -/
theorem replySpan_eq {bytes : List Byte} {i : Nat} (h : i + 5 ≤ bytes.length) :
    replySpan bytes i = [byteAt bytes i, byteAt bytes (i + 1), byteAt bytes (i + 2), byteAt bytes (i + 3),
      byteAt bytes (i + 4)] := by
  apply List.ext_getElem?
  intro n
  simp only [replySpan, List.getElem?_take, List.getElem?_drop]
  rcases n with _ | _ | _ | _ | _ | n
  · simpa using getElem?_byteAt (bytes := bytes) (j := i) (by omega)
  · simpa using getElem?_byteAt (bytes := bytes) (j := i + 1) (by omega)
  · simpa using getElem?_byteAt (bytes := bytes) (j := i + 2) (by omega)
  · simpa using getElem?_byteAt (bytes := bytes) (j := i + 3) (by omega)
  · simpa using getElem?_byteAt (bytes := bytes) (j := i + 4) (by omega)
  · simp

/-- At an offset of the scan, the scan finds a reply exactly where a reply stands. -/
theorem verdictAt_reply (bytes : List Byte) (sid : Byte) (i : Nat) (hi lo : Byte) (h : i + 8 ≤ bytes.length) :
    verdictAt bytes sid i = .reply hi lo ↔ ReplyAt bytes sid i hi lo := by
  have hs := replySpan_eq (bytes := bytes) (i := i) (by omega)
  have g0 := getElem?_byteAt (bytes := bytes) (j := i) (by omega)
  have g1 := getElem?_byteAt (bytes := bytes) (j := i + 1) (by omega)
  have g2 := getElem?_byteAt (bytes := bytes) (j := i + 2) (by omega)
  have g3 := getElem?_byteAt (bytes := bytes) (j := i + 3) (by omega)
  have g4 := getElem?_byteAt (bytes := bytes) (j := i + 4) (by omega)
  have g5 := getElem?_byteAt (bytes := bytes) (j := i + 5) (by omega)
  have g6 := getElem?_byteAt (bytes := bytes) (j := i + 6) (by omega)
  have hl : i + 5 < bytes.length := by omega
  simp only [ReplyAt, CandidateAt, g0, g1, g2, g3, g4, g5, g6, Option.some.injEq]
  constructor
  · intro hv
    simp only [verdictAt, isCandidate, countAccepted, crcMatches, hs, Bool.and_eq_true, beq_iff_eq,
      decide_eq_true_eq, Config.mbReadHolding, Config.decByteCount] at hv
    split at hv
    · rename_i hc
      split at hv
      · rename_i hn
        split at hv
        · rename_i hcrc
          injection hv with e1 e2
          refine ⟨_, _, ⟨hc.1, hc.2, hn.1, e1, e2, rfl, rfl⟩, ?_⟩
          rw [← hcrc, hc.1, hc.2, hn.1, e1, e2]
        · cases hv
      · cases hv
    · cases hv
  · rintro ⟨c0, c1, ⟨h0, h1, h2, h3, h4, h5, h6⟩, hcrc⟩
    simp [verdictAt, isCandidate, countAccepted, crcMatches, hs, Config.mbReadHolding, Config.decByteCount,
      h0, h1, h2, h3, h4, h5, h6, hl, hcrc]

/-- At an offset of the scan, the CRC test fails exactly where a candidate with a wrong CRC stands. -/
theorem verdictAt_crcFail (bytes : List Byte) (sid : Byte) (i : Nat) (h : i + 8 ≤ bytes.length) :
    verdictAt bytes sid i = .crcFail ↔ FailedCrcAt bytes sid i := by
  have hs := replySpan_eq (bytes := bytes) (i := i) (by omega)
  have g0 := getElem?_byteAt (bytes := bytes) (j := i) (by omega)
  have g1 := getElem?_byteAt (bytes := bytes) (j := i + 1) (by omega)
  have g2 := getElem?_byteAt (bytes := bytes) (j := i + 2) (by omega)
  have g3 := getElem?_byteAt (bytes := bytes) (j := i + 3) (by omega)
  have g4 := getElem?_byteAt (bytes := bytes) (j := i + 4) (by omega)
  have g5 := getElem?_byteAt (bytes := bytes) (j := i + 5) (by omega)
  have g6 := getElem?_byteAt (bytes := bytes) (j := i + 6) (by omega)
  have hl : i + 5 < bytes.length := by omega
  simp only [FailedCrcAt, CandidateAt, g0, g1, g2, g3, g4, g5, g6, Option.some.injEq]
  constructor
  · intro hv
    simp only [verdictAt, isCandidate, countAccepted, crcMatches, hs, Bool.and_eq_true, beq_iff_eq,
      decide_eq_true_eq, Config.mbReadHolding, Config.decByteCount] at hv
    split at hv
    · rename_i hc
      split at hv
      · rename_i hn
        split at hv
        · cases hv
        · rename_i hcrc
          refine ⟨_, _, _, _, ⟨hc.1, hc.2, hn.1, rfl, rfl, rfl, rfl⟩, ?_⟩
          intro he
          apply hcrc
          rw [← he, hc.1, hc.2, hn.1]
      · cases hv
    · cases hv
  · rintro ⟨hi, lo, c0, c1, ⟨h0, h1, h2, h3, h4, h5, h6⟩, hcrc⟩
    simp [verdictAt, isCandidate, countAccepted, crcMatches, hs, Config.mbReadHolding, Config.decByteCount,
      h0, h1, h2, h3, h4, h5, h6, hl, hcrc]

/-- The scan ends at the highest of its offsets that holds a reply. -/
theorem scan_found (bytes : List Byte) (sid : Byte) (hi lo : Byte) :
    ∀ (n : Nat) (f : Bool), scan bytes sid n f = .found hi lo ↔
      ∃ i, i < n ∧ verdictAt bytes sid (5 + i) = .reply hi lo ∧
        ∀ j, i < j → j < n → ∀ h l, verdictAt bytes sid (5 + j) ≠ .reply h l := by
  intro n
  induction n with
  | zero => intro f; simp [scan]
  | succ n ih =>
    intro f
    simp only [scan, Config.decScanLo]
    have step : ∀ f', (∀ h l, verdictAt bytes sid (5 + n) ≠ .reply h l) →
        (scan bytes sid n f' = .found hi lo ↔
          ∃ i, i < n + 1 ∧ verdictAt bytes sid (5 + i) = .reply hi lo ∧
            ∀ j, i < j → j < n + 1 → ∀ h l, verdictAt bytes sid (5 + j) ≠ .reply h l) := by
      intro f' hn
      rw [ih f']
      constructor
      · rintro ⟨i, hi', hv, hall⟩
        refine ⟨i, by omega, hv, fun j hij hjn => ?_⟩
        rcases Nat.lt_or_ge j n with hlt | hge
        · exact hall j hij hlt
        · have : j = n := by omega
          subst this
          exact hn
      · rintro ⟨i, hi', hv, hall⟩
        have hne : i ≠ n := by
          rintro rfl
          exact hn _ _ hv
        exact ⟨i, by omega, hv, fun j hij hjn => hall j hij (by omega)⟩
    split
    · rename_i h l hv
      constructor
      · intro he
        injection he with e1 e2
        subst e1 e2
        exact ⟨n, by omega, hv, fun j hij hjn => by omega⟩
      · rintro ⟨i, hi', hvi, hall⟩
        have : i = n := by
          by_contra hne
          exact hall n (by omega) (by omega) h l hv
        subst this
        rw [hv] at hvi
        injection hvi with e1 e2
        rw [e1, e2]
    · rename_i hv
      exact step true (by simp [hv])
    · rename_i hv
      exact step f (by simp [hv])

/-- The scan is exhausted exactly where none of its offsets holds a reply; it then says whether one failed its CRC. -/
theorem scan_exhausted (bytes : List Byte) (sid : Byte) (g : Bool) :
    ∀ (n : Nat) (f : Bool), scan bytes sid n f = .exhausted g ↔
      (∀ j, j < n → ∀ h l, verdictAt bytes sid (5 + j) ≠ .reply h l) ∧
      (g = true ↔ f = true ∨ ∃ j, j < n ∧ verdictAt bytes sid (5 + j) = .crcFail) := by
  intro n
  induction n with
  | zero =>
    intro f
    cases f <;> cases g <;> simp [scan]
  | succ n ih =>
    intro f
    simp only [scan, Config.decScanLo]
    split
    · rename_i h l hv
      simp only [reduceCtorEq, false_iff, not_and]
      intro hall
      exact absurd hv (hall n (by omega) h l)
    · rename_i hv
      rw [ih true]
      constructor
      · rintro ⟨hall, hg⟩
        refine ⟨fun j hj => ?_, ?_⟩
        · rcases Nat.lt_or_ge j n with hlt | hge
          · exact hall j hlt
          · have : j = n := by omega
            subst this
            simp [hv]
        · simp only [true_or, iff_true] at hg
          simp only [hg, true_iff]
          exact .inr ⟨n, by omega, hv⟩
      · rintro ⟨hall, hg⟩
        refine ⟨fun j hj => hall j (by omega), ?_⟩
        simp only [true_or, iff_true]
        exact hg.mpr (.inr ⟨n, by omega, hv⟩)
    · rename_i hv
      rw [ih f]
      have hex : (∃ j, j < n ∧ verdictAt bytes sid (5 + j) = .crcFail) ↔
          ∃ j, j < n + 1 ∧ verdictAt bytes sid (5 + j) = .crcFail := by
        constructor
        · rintro ⟨j, hj, h⟩
          exact ⟨j, by omega, h⟩
        · rintro ⟨j, hj, h⟩
          refine ⟨j, ?_, h⟩
          rcases Nat.lt_or_ge j n with hlt | hge
          · exact hlt
          · have : j = n := by omega
            subst this
            rw [hv] at h
            cases h
      rw [hex]
      constructor
      · rintro ⟨hall, hg⟩
        refine ⟨fun j hj => ?_, hg⟩
        rcases Nat.lt_or_ge j n with hlt | hge
        · exact hall j hlt
        · have : j = n := by omega
          subst this
          simp [hv]
      · rintro ⟨hall, hg⟩
        exact ⟨fun j hj => hall j (by omega), hg⟩

/-- The offsets of the scan are those of R88. -/
theorem inScan_iff {n : Nat} (h : 15 ≤ n) (i : Nat) : InScan n (5 + i) ↔ i < scanCount n := by
  simp only [InScan, scanCount, Config.decScanTail, Config.decScanLo]
  omega

end Sys2Proof.Machine
end

