-- ==== Sys2Proof/Laws/Encoding.lean ====
section
/-! SUPPORT. The fields of a command word and of a transaction, read from the concatenation that builds them and the
other way round. -/

namespace Sys2Proof

/-- A command word is its RSVD field above its OP field (R60). -/
theorem commandWord_fields (v : Word) : v = rsvdField v ++ opField v := by
  apply BitVec.eq_of_getLsbD_eq
  intro i hi
  have h := BitVec.getLsbD_append (x := rsvdField v) (y := opField v) (i := i)
  refine Eq.trans ?_ h.symm
  simp only [rsvdField, opField, BitVec.getLsbD_extractLsb']
  split
  · rename_i h8
    simp [h8]
  · have h24 : i - 8 < 24 := by omega
    simp [h24, show 8 + (i - 8) = i by omega]

/-- The bits of a transaction by field (R66). -/
theorem transaction_getLsbD (w : BitVec 1) (z : BitVec 3) (o : BitVec 12) (d : BitVec 32) (i : Nat) :
    (w ++ z ++ o ++ d).getLsbD i =
      if i < 32 then d.getLsbD i
      else if i - 32 < 12 then o.getLsbD (i - 32)
      else if i - 32 - 12 < 3 then z.getLsbD (i - 32 - 12)
      else w.getLsbD (i - 32 - 12 - 3) := by
  rw [BitVec.getLsbD_append, BitVec.getLsbD_append, BitVec.getLsbD_append]

/-- W, bit 47. -/
theorem transaction_w (w : BitVec 1) (z : BitVec 3) (o : BitVec 12) (d : BitVec 32) :
    (w ++ z ++ o ++ d).extractLsb' 47 1 = w := by
  apply BitVec.eq_of_getLsbD_eq
  intro i hi
  rw [BitVec.getLsbD_extractLsb', transaction_getLsbD, if_neg (by omega), if_neg (by omega), if_neg (by omega)]
  simp [hi, show 47 + i - 32 - 12 - 3 = i by omega]

/-- The zero bits, [46:44]. -/
theorem transaction_z (w : BitVec 1) (z : BitVec 3) (o : BitVec 12) (d : BitVec 32) :
    (w ++ z ++ o ++ d).extractLsb' 44 3 = z := by
  apply BitVec.eq_of_getLsbD_eq
  intro i hi
  rw [BitVec.getLsbD_extractLsb', transaction_getLsbD, if_neg (by omega), if_neg (by omega), if_pos (by omega)]
  simp [hi, show 44 + i - 32 - 12 = i by omega]

/-- OFF, bits [43:32]. -/
theorem transaction_off (w : BitVec 1) (z : BitVec 3) (o : BitVec 12) (d : BitVec 32) :
    (w ++ z ++ o ++ d).extractLsb' 32 12 = o := by
  apply BitVec.eq_of_getLsbD_eq
  intro i hi
  rw [BitVec.getLsbD_extractLsb', transaction_getLsbD, if_neg (by omega), if_pos (by omega)]
  simp [hi, show 32 + i - 32 = i by omega]

/-- DATA, bits [31:0]. -/
theorem transaction_data (w : BitVec 1) (z : BitVec 3) (o : BitVec 12) (d : BitVec 32) :
    (w ++ z ++ o ++ d).extractLsb' 0 32 = d := by
  apply BitVec.eq_of_getLsbD_eq
  intro i hi
  rw [BitVec.getLsbD_extractLsb', transaction_getLsbD, if_pos (by omega)]
  simp [hi]

/-- A transaction is its four fields. -/
theorem transaction_fields (t : Transaction) :
    t = t.extractLsb' 47 1 ++ t.extractLsb' 44 3 ++ t.extractLsb' 32 12 ++ t.extractLsb' 0 32 := by
  apply BitVec.eq_of_getLsbD_eq
  intro i hi
  refine Eq.trans ?_ (transaction_getLsbD _ _ _ _ i).symm
  simp only [BitVec.getLsbD_extractLsb']
  split
  · rename_i h
    simp [h]
  · split
    · rename_i h
      simp [h, show 32 + (i - 32) = i by omega]
    · split
      · rename_i h
        simp [h, show 44 + (i - 32 - 12) = i by omega]
      · have h : i - 32 - 12 - 3 < 1 := by omega
        simp [h, show 47 + (i - 32 - 12 - 3) = i by omega]

end Sys2Proof
end

