-- ==== Sys2Proof/Laws/PerInstr.lean ====
section
/-! SUPPORT. What holds of every command as syntax: its word is one the block runs, with its opcode in OP and RSVD
zero. -/

namespace Sys2Proof.Laws.Encoding

/-- The command is well formed and its word has RSVD zero and the command's opcode in OP (R60, R61). -/
def Statement (i : Instr) : Prop :=
  i.WellFormed = true ∧ commandWordOk (encodeCommand i) = true ∧ opField (encodeCommand i) = opcodeOf i ∧
    rsvdField (encodeCommand i) = 0#24

theorem crc16 : Statement .crc16 := ⟨rfl, rfl, rfl, rfl⟩

theorem v5sum : Statement .v5sum := ⟨rfl, rfl, rfl, rfl⟩

theorem encode : Statement .encode := ⟨rfl, rfl, rfl, rfl⟩

theorem decode : Statement .decode := ⟨rfl, rfl, rfl, rfl⟩

end Sys2Proof.Laws.Encoding
end

