-- ==== Sys2Proof/Laws/Step.lean ====
section
/-! SUPPORT. What each command, each host event and each step can do, said once; the register map read both ways. -/

namespace Sys2Proof.Machine

/-! ### The commands -/

/-- Everything CRC16 can answer (R71). -/
theorem execCrc16_cases (s : State) :
    (300 < s.bufLen.toNat ∧ exec .crc16 s = .next (s.setStatus .lenError)) ∨
    (s.bufLen.toNat ≤ 300 ∧ s.Unwritten ∧ exec .crc16 s = .fault .unwrittenRead) ∨
    (∃ bytes, s.bufLen.toNat ≤ 300 ∧ s.Holds bytes ∧
      exec .crc16 s = .next { s with crcResult := crc16Modbus bytes, statusCode := .ok }) := by
  rcases withBuffer_cases 0 s (fun bytes => { s with crcResult := crc16Modbus bytes, statusCode := .ok }) with
    ⟨h, e⟩ | ⟨_, h, _⟩ | ⟨h, _, hu, e⟩ | ⟨bytes, h, _, hb, e⟩
  · exact .inl ⟨h, e⟩
  · omega
  · exact .inr (.inl ⟨h, hu, e⟩)
  · exact .inr (.inr ⟨bytes, h, hb, e⟩)

/-- Everything V5SUM can answer (R73). -/
theorem execV5sum_cases (s : State) :
    (300 < s.bufLen.toNat ∧ exec .v5sum s = .next (s.setStatus .lenError)) ∨
    (s.bufLen.toNat ≤ 300 ∧ s.Unwritten ∧ exec .v5sum s = .fault .unwrittenRead) ∨
    (∃ bytes, s.bufLen.toNat ≤ 300 ∧ s.Holds bytes ∧
      exec .v5sum s = .next { s with sumResult := v5Checksum bytes, statusCode := .ok }) := by
  rcases withBuffer_cases 0 s (fun bytes => { s with sumResult := v5Checksum bytes, statusCode := .ok }) with
    ⟨h, e⟩ | ⟨_, h, _⟩ | ⟨h, _, hu, e⟩ | ⟨bytes, h, _, hb, e⟩
  · exact .inl ⟨h, e⟩
  · omega
  · exact .inr (.inl ⟨h, hu, e⟩)
  · exact .inr (.inr ⟨bytes, h, hb, e⟩)

/-- Everything ENCODE can answer (R77, R79). -/
theorem execEncode_cases (s : State) :
    (s.serialValid = false ∧ exec .encode s = .next (s.setStatus .configUnset)) ∨
    (s.serialValid = true ∧ exec .encode s = .next { s with
      req := frame s.slaveId s.reqAddr s.reqCount s.serial s.seq
      seq := s.seq + 1#8
      statusCode := .ok }) := by
  cases h : s.serialValid
  · exact .inl ⟨rfl, by simp [exec, execEncode, h, raiseStatus]⟩
  · exact .inr ⟨rfl, by simp [exec, execEncode, h]⟩

/-- Everything DECODE can answer (R86). -/
theorem execDecode_cases (s : State) :
    (300 < s.bufLen.toNat ∧ exec .decode s = .next (s.setStatus .lenError)) ∨
    (s.bufLen.toNat < 15 ∧ exec .decode s = .next (s.setStatus .malformedFrame)) ∨
    (s.bufLen.toNat ≤ 300 ∧ 15 ≤ s.bufLen.toNat ∧ s.Unwritten ∧ exec .decode s = .fault .unwrittenRead) ∨
    (∃ bytes, s.bufLen.toNat ≤ 300 ∧ 15 ≤ s.bufLen.toNat ∧ s.Holds bytes ∧
      exec .decode s = .next (s.finishDecode Config.crcMismatchDistinct (scanAll bytes s.slaveId))) := by
  rcases withBuffer_cases Config.decMinLen s
    (fun bytes => s.finishDecode Config.crcMismatchDistinct (scanAll bytes s.slaveId)) with
    ⟨h, e⟩ | ⟨_, h, e⟩ | ⟨h, hm, hu, e⟩ | ⟨bytes, h, hm, hb, e⟩
  · exact .inl ⟨h, e⟩
  · exact .inr (.inl ⟨h, e⟩)
  · exact .inr (.inr (.inl ⟨h, hm, hu, e⟩))
  · exact .inr (.inr (.inr ⟨bytes, h, hm, hb, e⟩))

/-- No command is refused. -/
theorem exec_not_refused (i : Instr) (s : State) (r : Refusal) : exec i s ≠ .refused r := by
  cases i
  · rcases execCrc16_cases s with ⟨_, e⟩ | ⟨_, _, e⟩ | ⟨_, _, _, e⟩ <;> rw [e] <;> simp
  · rcases execV5sum_cases s with ⟨_, e⟩ | ⟨_, _, e⟩ | ⟨_, _, _, e⟩ <;> rw [e] <;> simp
  · rcases execEncode_cases s with ⟨_, e⟩ | ⟨_, e⟩ <;> rw [e] <;> simp
  · rcases execDecode_cases s with ⟨_, e⟩ | ⟨_, e⟩ | ⟨_, _, _, e⟩ | ⟨_, _, _, _, e⟩ <;> rw [e] <;> simp

/-! ### The register map -/

/-- A register stands at its own offset only. -/
theorem regAt_eq_some (off : Offset) (r : Reg) : regAt off = some r ↔ off = r.offset := by
  constructor
  · intro h
    have hb : (r.offset == off) = true := List.find?_some (p := fun r : Reg => r.offset == off) h
    exact (beq_iff_eq.mp hb).symm
  · rintro rfl
    cases r <;> rfl

/-- Everything an offset can name (R45). -/
theorem locate_cases (off : Offset) :
    (0x100 ≤ off.toNat ∧ off.toNat ≤ 0x123 ∧ locate off = .reqWord ((off.toNat - 0x100) / 4)) ∨
    (0x200 ≤ off.toNat ∧ off.toNat ≤ 0x32B ∧ locate off = .bufWord ((off.toNat - 0x200) / 4)) ∨
    (∃ r : Reg, off = r.offset ∧ locate off = .reg r) ∨
    ((∀ r : Reg, off ≠ r.offset) ∧ ¬ (0x100 ≤ off.toNat ∧ off.toNat ≤ 0x123) ∧
      ¬ (0x200 ≤ off.toNat ∧ off.toNat ≤ 0x32B) ∧ locate off = .reserved) := by
  by_cases h1 : 0x100 ≤ off.toNat ∧ off.toNat ≤ 0x123
  · exact .inl ⟨h1.1, h1.2, by rw [locate, if_pos h1]⟩
  by_cases h2 : 0x200 ≤ off.toNat ∧ off.toNat ≤ 0x32B
  · exact .inr (.inl ⟨h2.1, h2.2, by rw [locate, if_neg h1, if_pos h2]⟩)
  cases h3 : regAt off with
  | some r =>
    exact .inr (.inr (.inl ⟨r, (regAt_eq_some off r).mp h3, by rw [locate, if_neg h1, if_neg h2, h3]⟩))
  | none =>
    refine .inr (.inr (.inr ⟨fun r e => ?_, h1, h2, by rw [locate, if_neg h1, if_neg h2, h3]⟩))
    rw [(regAt_eq_some off r).mpr e] at h3
    cases h3

@[simp] theorem locate_offset (r : Reg) : locate r.offset = .reg r := by
  cases r <;> rfl

theorem locate_eq_reg (off : Offset) (r : Reg) : locate off = .reg r ↔ off = r.offset := by
  constructor
  · intro h
    rcases locate_cases off with ⟨_, _, e⟩ | ⟨_, _, e⟩ | ⟨r', ho, e⟩ | ⟨_, _, _, e⟩ <;> rw [e] at h
    · cases h
    · cases h
    · injection h with h
      rw [ho, h]
    · cases h
  · rintro rfl
    exact locate_offset r

/-- A word of the BUF window is one of 75. -/
theorem locate_eq_bufWord {off : Offset} {k : Nat} (h : locate off = .bufWord k) :
    k < 75 ∧ 0x200 ≤ off.toNat ∧ off.toNat ≤ 0x32B ∧ k = (off.toNat - 0x200) / 4 := by
  rcases locate_cases off with ⟨_, _, e⟩ | ⟨_, _, e⟩ | ⟨r', ho, e⟩ | ⟨_, _, _, e⟩ <;> rw [e] at h
  · cases h
  · injection h with h
    omega
  · cases h
  · cases h

/-- A word of the REQ window is one of 9. -/
theorem locate_eq_reqWord {off : Offset} {k : Nat} (h : locate off = .reqWord k) :
    k < 9 ∧ 0x100 ≤ off.toNat ∧ off.toNat ≤ 0x123 ∧ k = (off.toNat - 0x100) / 4 := by
  rcases locate_cases off with ⟨_, _, e⟩ | ⟨_, _, e⟩ | ⟨r', ho, e⟩ | ⟨_, _, _, e⟩ <;> rw [e] at h
  · injection h with h
    omega
  · cases h
  · cases h
  · cases h

theorem bufOffset_toNat {k : Nat} (h : k < 75) : (bufOffset k).toNat = 0x200 + 4 * k := by
  simp only [bufOffset, BitVec.toNat_ofNat]
  omega

theorem reqOffset_toNat {k : Nat} (h : k < 9) : (reqOffset k).toNat = 0x100 + 4 * k := by
  simp only [reqOffset, BitVec.toNat_ofNat]
  omega

theorem locate_bufOffset {k : Nat} (h : k < 75) : locate (bufOffset k) = .bufWord k := by
  have e := bufOffset_toNat h
  have h1 : ¬ (0x100 ≤ (bufOffset k).toNat ∧ (bufOffset k).toNat ≤ 0x123) := by omega
  have h2 : 0x200 ≤ (bufOffset k).toNat ∧ (bufOffset k).toNat ≤ 0x32B := by omega
  simp only [locate, if_neg h1, if_pos h2]
  congr 1
  omega

theorem locate_reqOffset {k : Nat} (h : k < 9) : locate (reqOffset k) = .reqWord k := by
  have e := reqOffset_toNat h
  have h1 : 0x100 ≤ (reqOffset k).toNat ∧ (reqOffset k).toNat ≤ 0x123 := by omega
  simp only [locate, if_pos h1]
  congr 1
  omega

/-- An offset is aligned exactly where it is a multiple of 4. -/
theorem aligned_iff (off : Offset) : aligned off = true ↔ off.toNat % 4 = 0 := by
  simp only [aligned, beq_iff_eq, ← BitVec.toNat_inj, BitVec.extractLsb'_toNat]
  simp

theorem aligned_offset (r : Reg) : aligned r.offset = true := by
  cases r <;> rfl

theorem aligned_bufOffset {k : Nat} (h : k < 75) : aligned (bufOffset k) = true := by
  rw [aligned_iff, bufOffset_toNat h]
  omega

theorem aligned_reqOffset {k : Nat} (h : k < 9) : aligned (reqOffset k) = true := by
  rw [aligned_iff, reqOffset_toNat h]
  omega

/-! ### Host events -/

/-- Everything the check on an access can answer (R41, R42). -/
theorem checkAccess_cases (off : Offset) (size : Nat) (a : Answer) :
    (size ≠ 4 ∧ checkAccess off size a = .refused .notWordAccess) ∨
    (size = 4 ∧ off.toNat % 4 ≠ 0 ∧ checkAccess off size a = .refused .misalignedAccess) ∨
    (size = 4 ∧ off.toNat % 4 = 0 ∧ checkAccess off size a = a) := by
  by_cases hs : size = 4
  · by_cases ha : aligned off = true
    · exact .inr (.inr ⟨hs, (aligned_iff off).mp ha, by simp [checkAccess, hs, ha]⟩)
    · exact .inr (.inl ⟨hs, fun h => ha ((aligned_iff off).mpr h), by simp [checkAccess, hs, ha]⟩)
  · exact .inl ⟨hs, by simp [checkAccess, hs]⟩

theorem checkAccess_ok {off : Offset} (a : Answer) (h : aligned off = true) : checkAccess off 4 a = a := by
  simp [checkAccess, h]

/-- A host read of a register always completes, with the register's word (R46). -/
@[simp] theorem readTarget_offset (s : State) (r : Reg) : s.readTarget (locate r.offset) = some (s.readReg r) := by
  rw [locate_offset]
  rfl

/-- What a read returns depends on no field of the host's side (R52). -/
theorem readTarget_hostSide (s : State) (d : Option Word) (p : List HostEvent) (tgt : Target) :
    State.readTarget { s with readData := d, pending := p } tgt = s.readTarget tgt := by
  cases tgt with
  | reg r => cases r <;> rfl
  | reqWord k => rfl
  | bufWord k => rfl
  | reserved => rfl

/-- A read completes unless it is of a BUF word with an unwritten byte (R46, R99). -/
theorem readTarget_eq_none (s : State) (tgt : Target) :
    s.readTarget tgt = none ↔ ∃ k, tgt = .bufWord k ∧ s.bufWord k = none := by
  cases tgt <;> simp [State.readTarget]

/-- Everything a host read can answer (R46). -/
theorem memRead_cases (off : Offset) (s : State) :
    (∃ w, s.readTarget (locate off) = some w ∧ memRead off s = .next { s with readData := some w }) ∨
    (s.readTarget (locate off) = none ∧ memRead off s = .fault .unwrittenRead) := by
  cases h : s.readTarget (locate off) with
  | some w => exact .inl ⟨w, rfl, by simp [memRead, h]⟩
  | none => exact .inr ⟨rfl, by simp [memRead, h, raiseUnwrittenRead]⟩

/-- Everything a host write can do (R46): a command, a BUF word, a register, or nothing. -/
theorem memWrite_cases (off : Offset) (v : Word) (s : State) :
    (off = 0x000#12 ∧ memWrite off v s = runCommand v s) ∨
    (∃ k, k < 75 ∧ locate off = .bufWord k ∧ memWrite off v s = .next (s.writeBufWord k v)) ∨
    (∃ r : Reg, r ≠ .cmd ∧ off = r.offset ∧ memWrite off v s = .next (s.writeReg v r)) ∨
    ((∀ r : Reg, off ≠ r.offset) ∧ (∀ k, locate off ≠ .bufWord k) ∧ memWrite off v s = .next s) := by
  have hr : ∀ r : Reg, off = r.offset → locate off = .reg r := fun r h => (locate_eq_reg off r).mpr h
  cases h : locate off with
  | reg r =>
    have ho := (locate_eq_reg off r).mp h
    cases r
    · exact .inl ⟨ho, by simp [memWrite, h]⟩
    all_goals exact .inr (.inr (.inl ⟨_, by simp, ho, by simp [memWrite, h]⟩))
  | bufWord k => exact .inr (.inl ⟨k, (locate_eq_bufWord h).1, rfl, by simp [memWrite, h]⟩)
  | reqWord k =>
    refine .inr (.inr (.inr ⟨fun r e => ?_, fun k' => by simp, by simp [memWrite, h]⟩))
    rw [hr r e] at h
    cases h
  | reserved =>
    refine .inr (.inr (.inr ⟨fun r e => ?_, fun k' => by simp, by simp [memWrite, h]⟩))
    rw [hr r e] at h
    cases h

/-- Everything a CMD write can do (R60). -/
theorem runCommand_cases (v : Word) (s : State) :
    (∃ i, decodeCommand v = .ok i ∧ runCommand v s = exec i s) ∨
    (∃ e, decodeCommand v = .error e ∧ runCommand v s = .next (s.setStatus .illegalCmd)) := by
  cases h : decodeCommand v with
  | ok i => exact .inl ⟨i, rfl, by simp [runCommand, h]⟩
  | error e => exact .inr ⟨e, rfl, by simp [runCommand, h, raiseStatus]⟩

theorem memWrite_cmd (v : Word) (s : State) : memWrite 0x000#12 v s = runCommand v s := rfl

@[simp] theorem step_nil {s : State} (h : s.pending = []) : step s = .next s := by
  simp [step, h]

@[simp] theorem step_cons {s : State} {e : HostEvent} {rest : List HostEvent} (h : s.pending = e :: rest) :
    step s = perform e { s with pending := rest } := by
  simp [step, h]

/-- Everything a step that goes on with an event can have done (R46, R60, R107). -/
theorem step_cases {s t : State} {e : HostEvent} {rest : List HostEvent} (hp : s.pending = e :: rest)
    (h : step s = .next t) :
    (∃ off w, e = .read off 4 ∧ t = { s with pending := rest, readData := some w }) ∨
    (∃ v, e = .write 0x000#12 4 v ∧ runCommand v { s with pending := rest } = .next t) ∨
    (∃ off k v, e = .write off 4 v ∧ k < 75 ∧ locate off = .bufWord k ∧
      t = State.writeBufWord { s with pending := rest } k v) ∨
    (∃ (r : Reg) (v : Word), r ≠ .cmd ∧ e = .write r.offset 4 v ∧
      t = State.writeReg { s with pending := rest } v r) ∨
    (∃ off v, e = .write off 4 v ∧ (∀ r : Reg, off ≠ r.offset) ∧ (∀ k, locate off ≠ .bufWord k) ∧
      t = { s with pending := rest }) ∨
    (e = .reset ∧ t = State.applyReset { s with pending := rest }) := by
  rw [step_cons hp] at h
  cases e with
  | read off size =>
    simp only [perform] at h
    rcases checkAccess_cases off size (memRead off { s with pending := rest }) with
      ⟨_, e⟩ | ⟨_, _, e⟩ | ⟨h1, _, e⟩ <;> rw [e] at h
    · cases h
    · cases h
    · rcases memRead_cases off { s with pending := rest } with ⟨w, _, e⟩ | ⟨_, e⟩ <;> rw [e] at h
      · cases h
        exact .inl ⟨off, w, by rw [h1], rfl⟩
      · cases h
  | write off size v =>
    simp only [perform] at h
    rcases checkAccess_cases off size (memWrite off v { s with pending := rest }) with
      ⟨_, e⟩ | ⟨_, _, e⟩ | ⟨h1, _, e⟩ <;> rw [e] at h
    · cases h
    · cases h
    · subst h1
      rcases memWrite_cases off v { s with pending := rest } with
        ⟨ho, e⟩ | ⟨k, hk, hl, e⟩ | ⟨r, hr, ho, e⟩ | ⟨hn, hb, e⟩ <;> rw [e] at h
      · subst ho
        exact .inr (.inl ⟨v, rfl, h⟩)
      · cases h
        exact .inr (.inr (.inl ⟨off, k, v, rfl, hk, hl, rfl⟩))
      · cases h
        subst ho
        exact .inr (.inr (.inr (.inl ⟨r, v, hr, rfl, rfl⟩)))
      · cases h
        exact .inr (.inr (.inr (.inr (.inl ⟨off, v, rfl, hn, hb, rfl⟩))))
  | reset =>
    cases h
    exact .inr (.inr (.inr (.inr (.inr ⟨rfl, rfl⟩))))

end Sys2Proof.Machine
end

