-- ==== Sys2Proof/Tests/Slice0.lean ====
section
/-! SUPPORT. Tests with expected results taken from the spec (95_test_vectors.md, or a rule worked by hand), and one
witness for the hypotheses of each statement. -/

namespace Sys2Proof.Tests

open Sys2Proof Sys2Proof.Machine

/-! ### Helpers -/

/-- The state a step goes on with, if it does. -/
def nextState : Answer → Option State
  | .next t => some t
  | .fault _ => none
  | .refused _ => none

/-- Whether a step faults. -/
def faults : Answer → Bool
  | .fault _ => true
  | .next _ => false
  | .refused _ => false

/-- Reset, then these bytes in BUF from BUF[0], BUF_LEN their number. -/
def loaded (bytes : List Byte) : State :=
  { State.reset with
    buf := bytes.zipIdx.map (fun p => (p.2, p.1))
    bufLen := BitVec.ofNat 9 bytes.length }

/-- Reset, then these events to come. -/
def hostDoes (es : List HostEvent) : State := { State.reset with pending := es }

/-- Every register at its largest value. -/
def full : State :=
  { State.reset with
    slaveId := 0xFF#8, serial := 0xFFFFFFFF#32, serialValid := true, seq := 0xFF#8, reqAddr := 0xFFFF#16
    reqCount := 0xFFFF#16, bufLen := 511#9, resultValue := 0xFFFF#16, resultSigned := true, crcResult := 0xFFFF#16
    sumResult := 0xFF#8 }

/-! ### WellFormed: an ill-formed term for each check -/

theorem test_wf_command : Instr.encode.WellFormed = true := rfl
theorem test_wf_reserved_bits : reservedClear 0x00000103#32 = false := by decide
theorem test_wf_opcode : opcodeDefined 0x00000000#32 = false ∧ opcodeDefined 0x00000005#32 = false := by decide
theorem test_wf_word : commandWordOk 0x00000103#32 = false ∧ commandWordOk 0x00000004#32 = true := by decide
theorem test_wf_aligned : aligned 0x002#12 = false ∧ aligned 0xFFC#12 = true := by decide
theorem test_wf_event_misaligned : (HostEvent.read 0x001#12 4).WellFormed = false := by decide
theorem test_wf_event_narrow : (HostEvent.write 0x000#12 2 0#32).WellFormed = false := by decide
theorem test_wf_loadbuf : loadbufOk (List.replicate 301 0x00#8) = false := by decide +kernel

/-! ### Decoding: words written out from rule R61, and transactions printed in 95_test_vectors.md -/

theorem test_decode_crc16 : decodeCommand 0b00000000000000000000000000000001#32 = .ok .crc16 := by decide
theorem test_decode_v5sum : decodeCommand 0b00000000000000000000000000000010#32 = .ok .v5sum := by decide
theorem test_decode_encode : decodeCommand 0b00000000000000000000000000000011#32 = .ok .encode := by decide
theorem test_decode_decode : decodeCommand 0b00000000000000000000000000000100#32 = .ok .decode := by decide
theorem test_decode_reserved : decodeCommand 0x00000103#32 = .error .reservedBitsSet := by decide
theorem test_decode_zero : decodeCommand 0x00000000#32 = .error .unknownOpcode := by decide
theorem test_encode_words :
    [Instr.crc16, .v5sum, .encode, .decode].map encodeCommand = [1#32, 2#32, 3#32, 4#32] := by decide
theorem test_table_word : decodeTableWord 32 3 = some .encode ∧ decodeTableWord 32 5 = none := by decide

/-- P1: `wr SERIAL, 0xB1543CB9` is T=800CB1543CB9. -/
theorem test_transaction_write :
    decodeTransaction 0x800CB1543CB9#48 = some (.write 0x00C#12 4 0xB1543CB9#32) ∧
    encodeTransaction (.write 0x00C#12 4 0xB1543CB9#32) = some 0x800CB1543CB9#48 := by decide +kernel

/-- P1: `rd REQ+32` is T=012000000000. -/
theorem test_transaction_read : decodeTransaction 0x012000000000#48 = some (.read 0x120#12 4) := by decide +kernel

/-! ### The commands -/

/-- R71, E1: `01 03 00 00 00 01` gives 0x0A84. -/
theorem test_crc16_example :
    (nextState (exec .crc16 (loaded [0x01#8, 0x03#8, 0x00#8, 0x00#8, 0x00#8, 0x01#8]))).map
      (fun t => (t.crcResult, t.statusCode)) = some (0x0A84#16, .ok) := by decide +kernel

/-- Section 2.1: BUF_LEN = 301 gives LEN_ERROR, CRC_RESULT unchanged. -/
theorem test_crc16_too_long :
    (nextState (exec .crc16 { State.reset with bufLen := 301#9, crcResult := 7#16 })).map
      (fun t => (t.crcResult, t.statusCode)) = some (7#16, .lenError) := by decide +kernel

/-- Section 2.2: `01 02 03 04` gives 0x02. -/
theorem test_v5sum_four :
    (nextState (exec .v5sum (loaded [0x01#8, 0x02#8, 0x03#8, 0x04#8]))).map (·.sumResult) = some 0x02#8 := by
  decide +kernel

/-- Section 2.2: `00 FF 01 00 00` wraps to 0x00. -/
theorem test_v5sum_wraps :
    (nextState (exec .v5sum { loaded [0x00#8, 0xFF#8, 0x01#8, 0x00#8, 0x00#8] with sumResult := 9#8 })).map
      (·.sumResult) = some 0x00#8 := by decide +kernel

/-- Section 2.3, last row: SLAVE_ID 0x00, REQ_ADDR 0x1234, REQ_COUNT 0x007D, SERIAL 0x01020304, SEQ 0x80. -/
theorem test_encode_frame :
    (nextState (exec .encode { State.reset with
      slaveId := 0x00#8, reqAddr := 0x1234#16, reqCount := 0x007D#16, serial := 0x01020304#32, serialValid := true
      seq := 0x80#8 })).map (fun t => (t.req.toList, t.seq)) =
    some ([0xA5#8, 0x17#8, 0x00#8, 0x10#8, 0x45#8, 0x80#8, 0x00#8, 0x04#8, 0x03#8, 0x02#8, 0x01#8, 0x02#8,
      0x00#8, 0x00#8, 0x00#8, 0x00#8, 0x00#8, 0x00#8, 0x00#8, 0x00#8, 0x00#8, 0x00#8, 0x00#8, 0x00#8, 0x00#8, 0x00#8,
      0x00#8, 0x03#8, 0x12#8, 0x34#8, 0x00#8, 0x7D#8, 0xC0#8, 0x8C#8, 0x0A#8, 0x15#8], 0x81#8) := by decide +kernel

/-- Section 2.3: SEQ 0xFF wraps to 0x00. -/
theorem test_encode_seq_wraps :
    (nextState (exec .encode full)).map (fun t => (t.req.toList.drop 32, t.seq)) =
      some ([0x51#8, 0x80#8, 0x38#8, 0x15#8], 0x00#8) := by decide +kernel

/-- V-D6: a corrupted CRC at 18, a valid reply at 8. -/
def vd6 : List Byte :=
  [0x00#8, 0x00#8, 0x00#8, 0x00#8, 0x00#8, 0x00#8, 0x00#8, 0x00#8, 0x01#8, 0x03#8, 0x02#8, 0x01#8, 0xF4#8, 0xB8#8,
   0x53#8, 0x00#8, 0x00#8, 0x00#8, 0x01#8, 0x03#8, 0x02#8, 0x12#8, 0x34#8, 0x4A#8, 0x33#8, 0x00#8, 0x15#8]

/-- V-D3a: a reply at offset 5, n = 15. -/
def vd3a : List Byte :=
  [0xA5#8, 0x00#8, 0x00#8, 0x00#8, 0x00#8, 0x01#8, 0x03#8, 0x02#8, 0x01#8, 0xF4#8, 0xB8#8, 0x53#8, 0x00#8, 0x15#8,
   0x00#8]

/-- V-D11: only a corrupted candidate, at 8. -/
def vd11 : List Byte :=
  [0x00#8, 0x00#8, 0x00#8, 0x00#8, 0x00#8, 0x00#8, 0x00#8, 0x00#8, 0x01#8, 0x03#8, 0x02#8, 0x12#8, 0x34#8, 0x4A#8,
   0x33#8, 0x00#8, 0x15#8]

/-- V-D6 gives 0x01F4, not signed. -/
theorem test_decode_past_false_match :
    (nextState (exec .decode (loaded vd6))).map (fun t => (t.statusCode, t.resultValue, t.resultSigned)) =
      some (.ok, 0x01F4#16, false) := by decide +kernel

/-- V-D11 gives NOT_FOUND, or CHECKSUM_MISMATCH under the parameter. -/
theorem test_decode_corrupted :
    [false, true].map (fun d => (nextState (execDecodeWith d (loaded vd11))).map (·.statusCode)) =
      [some .notFound, some .checksumMismatch] := by decide +kernel

/-! ### Host accesses (section 2.5) -/

theorem test_read_status_after_serial :
    (nextState (core.run 2 (hostDoes [wr .serial 0#32, rd .status]))).map (·.readData) = some (some 0x107#32) := by
  decide +kernel

/-- R22, R46: a read of SERIAL before its first write completes, and two reads agree (R52); the value is no test's. -/
theorem test_read_unset_serial :
    (nextState (step (hostDoes [rd .serial]))).isSome = true ∧
      (nextState (core.run 2 (hostDoes [rd .serial, rd .serial]))).map (·.readData) =
        (nextState (core.run 1 (hostDoes [rd .serial]))).map (·.readData) := by decide +kernel

theorem test_buf_len_masked :
    (nextState (core.run 2 (hostDoes [wr .bufLen 0xFFFFFFFF#32, rd .bufLen]))).map (·.readData) =
      some (some 0x1FF#32) := by decide +kernel

theorem test_read_reserved :
    (nextState (step (hostDoes [.read 0xFFC#12 4]))).map (·.readData) = some (some 0#32) := by decide +kernel

theorem test_fetch_word :
    (nextState (step (State.reset.withFetchWord 32 3))).map (·.statusCode) = some .configUnset := by decide +kernel

theorem test_loadbuf_expansion :
    loadbuf [0xA5#8, 0x15#8, 0x00#8, 0x10#8, 0x15#8] =
      [.write 0x200#12 4 0x100015A5#32, .write 0x204#12 4 0x00000015#32, .write 0x01C#12 4 0x00000005#32] := by
  decide +kernel

/-! ### Witnesses: a concrete state and operands for the hypotheses of each statement -/

theorem witness_StepRunsTheDecodedCommand :
    (hostDoes [.write 0x000#12 4 3#32]).pending = .write 0x000#12 4 3#32 :: [] ∧
      decodeCommand 3#32 = .ok .encode := ⟨rfl, rfl⟩

theorem witness_BlockIdlesWithoutHostAccess : State.reset.pending = [] := rfl

theorem witness_EachStepTakesOneEvent :
    (hostDoes [.reset]).pending = .reset :: [] ∧ step (hostDoes [.reset]) = .next State.reset := ⟨rfl, rfl⟩

theorem witness_MisalignedAccessIsRefused :
    (0xFFF#12).extractLsb' 0 2 ≠ 0b00#2 ∧
      (hostDoes [.read 0xFFF#12 4]).pending = .read 0xFFF#12 4 :: [] ∧
      (hostDoes [.write 0xFFF#12 4 1#32]).pending = .write 0xFFF#12 4 1#32 :: [] := ⟨by decide, rfl, rfl⟩

theorem witness_RefusesExactlyTheNonTransactions :
    step (hostDoes [.read 0x000#12 2]) = .refused .notWordAccess ∧
      step (hostDoes [.write 0x002#12 4 0#32]) = .refused .misalignedAccess := ⟨rfl, rfl⟩

theorem witness_FaultsExactlyOnUnwrittenReads :
    State.reset.EventFaults (.read 0x200#12 4) ∧ State.reset.EventFaults (.read 0x328#12 4) ∧
      ({ State.reset with bufLen := 15#9 } : State).EventFaults (.write 0x000#12 4 4#32) ∧
      ({ State.reset with bufLen := 300#9 } : State).EventFaults (.write 0x000#12 4 1#32) :=
  ⟨⟨rfl, 0, by decide, by decide, .inl rfl⟩, ⟨rfl, 74, by decide, by decide, .inl rfl⟩,
    ⟨rfl, rfl, .inr (.inr ⟨rfl, by decide⟩), by decide, ⟨14, by decide, rfl⟩⟩,
    ⟨rfl, rfl, .inl rfl, by decide, ⟨299, by decide, rfl⟩⟩⟩

/-- Every clause, at the largest value of each register. -/
theorem witness_RegisterReadsReturnTheField :
    ({ full with pending := [.read 0x004#12 4] } : State).pending = .read 0x004#12 4 :: [] ∧
    (0x107#32).toNat = (if full.serialValid then 256 else 0) + full.statusCode.code.toNat ∧
    (0xFF#32).toNat = full.slaveId.toNat ∧
    0xFFFFFFFF#32 = full.serial ∧
    (0xFF#32).toNat = full.seq.toNat ∧
    (0xFFFF#32).toNat = full.reqAddr.toNat ∧ (0xFFFF#32).toNat = full.reqCount.toNat ∧
    (0x1FF#32).toNat = full.bufLen.toNat ∧
    (0x1FFFF#32).toNat = (if full.resultSigned then 65536 else 0) + full.resultValue.toNat ∧
    (0xFFFF#32).toNat = full.crcResult.toNat ∧ (0xFF#32).toNat = full.sumResult.toNat := by decide

theorem witness_RegisterWritesStoreTheField :
    (hostDoes [.write 0x01C#12 4 0xFFFFFFFF#32]).pending = .write 0x01C#12 4 0xFFFFFFFF#32 :: [] ∧
      (hostDoes [.write 0x028#12 4 0xFFFFFFFF#32]).pending = .write 0x028#12 4 0xFFFFFFFF#32 :: [] := ⟨rfl, rfl⟩

theorem witness_ReservedSpaceReadsZero :
    (ReservedOffset 0x02C#12 ∧ ReservedOffset 0x0FC#12 ∧ ReservedOffset 0x124#12 ∧ ReservedOffset 0x1FC#12 ∧
      ReservedOffset 0x32C#12 ∧ ReservedOffset 0xFFC#12 ∧ (0xFFC#12).toNat % 4 = 0) ∧
    (full.pending = [] ∧ (nextState (step { full with pending := [.read Reg.result.offset 4] })).isSome = true) ∧
    0xFFFFFE01#32 &&& Reg.bufLen.fieldMask = 0x00000001#32 &&& Reg.bufLen.fieldMask := by
  unfold ReservedOffset
  decide

theorem witness_ReqWindowReadsTheFrame :
    8 < 9 ∧ (hostDoes [.read (BitVec.ofNat 12 (0x100 + 4 * 8)) 4]).pending =
      .read (BitVec.ofNat 12 (0x100 + 4 * 8)) 4 :: [] := ⟨by decide, rfl⟩

/-- BUF word 74, the last, written. -/
def lastWord : State :=
  { State.reset with buf := [(296, 0x01#8), (297, 0x02#8), (298, 0x03#8), (299, 0x04#8)] }

theorem witness_BufWindowReadsWrittenWords :
    74 < 75 ∧ lastWord.bufByte (4 * 74) = some 0x01#8 ∧ lastWord.bufByte (4 * 74 + 1) = some 0x02#8 ∧
      lastWord.bufByte (4 * 74 + 2) = some 0x03#8 ∧ lastWord.bufByte (4 * 74 + 3) = some 0x04#8 := by decide

theorem witness_BufWordWriteThenRead :
    74 < 75 ∧ (hostDoes [.write (BitVec.ofNat 12 (0x200 + 4 * 74)) 4 5#32]).pending =
      .write (BitVec.ofNat 12 (0x200 + 4 * 74)) 4 5#32 :: [] := ⟨by decide, rfl⟩

theorem witness_HostReadsChangeNothing :
    (hostDoes [.read 0x008#12 4]).pending = .read 0x008#12 4 :: [] ∧
      step (hostDoes [.read 0x008#12 4]) = .next { State.reset with readData := some 1#32 } := ⟨rfl, rfl⟩

theorem witness_RepeatedReadsAgree :
    (hostDoes [.read 0x00C#12 4, .read 0x00C#12 4]).pending = .read 0x00C#12 4 :: .read 0x00C#12 4 :: [] ∧
      (nextState (step (hostDoes [.read 0x00C#12 4, .read 0x00C#12 4]))).isSome = true := ⟨rfl, rfl⟩

theorem witness_HostWritesAreIdempotent :
    (hostDoes [.write 0x328#12 4 5#32, .write 0x328#12 4 5#32]).BufInv ∧ 0x328#12 ≠ 0x000#12 ∧
      (nextState (core.run 2 (hostDoes [.write 0x328#12 4 5#32, .write 0x328#12 4 5#32]))).isSome = true :=
  ⟨rfl, by decide, by decide +kernel⟩

theorem witness_SerialValidFollowsSerialWrites :
    (hostDoes [.write 0x00C#12 4 0#32]).pending = .write 0x00C#12 4 0#32 :: [] ∧
    step (hostDoes [.write 0x00C#12 4 0#32]) = .next { State.reset with serialValid := true } ∧
    step (hostDoes [.read 0x004#12 4]) = .next { State.reset with readData := some 7#32 } ∧
    step { full with pending := [.reset] } = .next State.reset ∧
    exec .encode State.reset = .next { State.reset with statusCode := .configUnset } := ⟨rfl, rfl, rfl, rfl, rfl⟩

theorem witness_SequenceCounterRule :
    full.serialValid = true ∧
    step (hostDoes [.write 0x010#12 4 0x1FF#32]) = .next { State.reset with seq := 0xFF#8 } ∧
    step (hostDoes [.write 0x000#12 4 3#32]) = .next { State.reset with statusCode := .configUnset } ∧
    step { full with pending := [.reset] } = .next State.reset := ⟨rfl, rfl, rfl, rfl⟩

theorem witness_CommandsWriteOnlyTheirOutputs :
    (∃ t, exec .crc16 (loaded vd6) = .next t) ∧ (∃ t, exec .v5sum (loaded vd6) = .next t) ∧
      (∃ t, exec .encode full = .next t) ∧ (∃ t, exec .decode (loaded vd6) = .next t) :=
  ⟨⟨_, rfl⟩, ⟨_, rfl⟩, ⟨_, rfl⟩, ⟨_, rfl⟩⟩

theorem witness_StatusIsWrittenByCommandsOnly :
    step (hostDoes [.write 0x000#12 4 0#32]) = .next { State.reset with statusCode := .illegalCmd } ∧
      step (hostDoes [.read 0x000#12 4]) = .next { State.reset with readData := some 0#32 } := ⟨rfl, rfl⟩

theorem witness_StatusCodesAndTheirRaisers :
    exec .decode { State.reset with bufLen := 14#9 } =
      .next { State.reset with bufLen := 14#9, statusCode := .malformedFrame } ∧
    exec .v5sum { State.reset with bufLen := 301#9 } =
      .next { State.reset with bufLen := 301#9, statusCode := .lenError } := ⟨rfl, rfl⟩

theorem witness_IllegalWordsOnlySetTheStatus :
    (hostDoes [.write 0x000#12 4 0x100#32]).pending = .write 0x000#12 4 0x100#32 :: [] ∧
      (0x100#32).extractLsb' 8 24 ≠ 0#24 ∧ ((0#32).extractLsb' 0 8).toNat = 0 ∧
      5 ≤ ((5#32).extractLsb' 0 8).toNat := by
  refine ⟨rfl, ?_⟩
  decide

/-- Each branch of the chain, by a word and a BUF_LEN at its edge. -/
theorem witness_OrderOfChecks :
    (256 ≤ (0x101#32).toNat) ∧
    ((1#32).toNat ≠ 3 ∧ 300 < (301#9).toNat) ∧
    ((4#32).toNat = 4 ∧ (14#9).toNat < 15) ∧
    ((3#32).toNat = 3 ∧ State.reset.serialValid = false) ∧
    ((List.range 15).any (fun j => !State.reset.written j) = true) ∧
    ((List.range (loaded vd3a).bufLen.toNat).any (fun j => !(loaded vd3a).written j) = false) := by decide +kernel

theorem witness_ChecksumIsTheSumOfTheBody : ([0x01#8, 0x02#8, 0x03#8] : List Byte).length ≤ 3 := by decide

/-- The longest input, all of it written. -/
theorem loaded_holds_300 : (loaded (List.replicate 300 0xFF#8)).Holds (List.replicate 300 0xFF#8) := by
  rw [← State.bufBytes_eq_some]
  decide +kernel

theorem witness_Crc16Command :
    (300 < ({ State.reset with bufLen := 301#9 } : State).bufLen.toNat) ∧
    (({ State.reset with bufLen := 300#9 } : State).bufLen.toNat ≤ 300 ∧
      ({ State.reset with bufLen := 300#9 } : State).Unwritten) ∧
    ((loaded (List.replicate 300 0xFF#8)).bufLen.toNat ≤ 300 ∧
      (loaded (List.replicate 300 0xFF#8)).Holds (List.replicate 300 0xFF#8)) :=
  ⟨by decide, ⟨by decide, 299, by decide, rfl⟩, by decide +kernel, loaded_holds_300⟩

theorem witness_V5sumCommand :
    (300 < ({ State.reset with bufLen := 511#9 } : State).bufLen.toNat) ∧
    (({ State.reset with bufLen := 1#9 } : State).bufLen.toNat ≤ 300 ∧
      ({ State.reset with bufLen := 1#9 } : State).Unwritten) ∧
    ((loaded []).bufLen.toNat ≤ 300 ∧ (loaded []).Holds []) :=
  ⟨by decide, ⟨by decide, 0, by decide, rfl⟩, by decide, rfl, by simp⟩

theorem witness_EncodeCommand : State.reset.serialValid = false ∧ full.serialValid = true := ⟨rfl, rfl⟩

theorem witness_FrameLayout : full.serialValid = true := rfl

theorem witness_ConsecutiveFramesDifferInTwoBytes : full.serialValid = true ∧ full.seq = 0xFF#8 := ⟨rfl, rfl⟩

theorem witness_EncodedFrameSelfValidates : ∃ t, exec .encode full = .next t ∧ t.statusCode = .ok := ⟨_, rfl, rfl⟩

theorem witness_DecodeLengthChecks :
    300 < (301#9).toNat ∧ (14#9).toNat < 15 ∧ 15 ≤ (loaded vd3a).bufLen.toNat ∧ (loaded vd3a).bufLen.toNat ≤ 300 ∧
      (nextState (exec .decode (loaded vd3a))).isSome = true := by decide +kernel

theorem witness_DecodeUnwrittenFaults :
    15 ≤ ({ State.reset with bufLen := 15#9 } : State).bufLen.toNat ∧
      ({ State.reset with bufLen := 15#9 } : State).bufLen.toNat ≤ 300 ∧
      ({ State.reset with bufLen := 15#9 } : State).Unwritten := ⟨by decide, by decide, 0, by decide, rfl⟩

theorem vd3a_holds : (loaded vd3a).Holds vd3a := by
  rw [← State.bufBytes_eq_some]
  decide +kernel

theorem vd6_holds : (loaded vd6).Holds vd6 := by
  rw [← State.bufBytes_eq_some]
  decide +kernel

theorem vd11_holds : (loaded vd11).Holds vd11 := by
  rw [← State.bufBytes_eq_some]
  decide +kernel

/-- V-D3a: the shortest input scanned, its reply at the lowest offset. -/
theorem witness_DecodeReturnsTheHighestReply :
    (loaded vd3a).Holds vd3a ∧ 15 ≤ vd3a.length ∧ vd3a.length ≤ 300 ∧ InScan vd3a.length 5 ∧
      ReplyAt vd3a (loaded vd3a).slaveId 5 0x01#8 0xF4#8 ∧
      (∀ j, 5 < j → InScan vd3a.length j → ∀ h l, ¬ ReplyAt vd3a (loaded vd3a).slaveId j h l) := by
  refine ⟨vd3a_holds, by decide, by decide, ⟨by decide, by decide⟩, ⟨0xB8#8, 0x53#8, ?_, by decide +kernel⟩, ?_⟩
  · unfold CandidateAt
    decide +kernel
  · rintro j hj ⟨_, hn⟩ h l ⟨c0, c1, ⟨h0, _⟩, _⟩
    have hlen : vd3a.length = 15 := rfl
    have : j = 6 ∨ j = 7 := by omega
    rcases this with rfl | rfl <;> exact absurd h0 (by decide)

/-- V-D6: a corrupted candidate at 18, a valid reply at 8. -/
theorem witness_ScanContinuesPastCrcMismatch :
    (loaded vd6).Holds vd6 ∧ 15 ≤ vd6.length ∧ vd6.length ≤ 300 ∧ InScan vd6.length 8 ∧ InScan vd6.length 18 ∧ 8 < 18 ∧
      ReplyAt vd6 (loaded vd6).slaveId 8 0x01#8 0xF4#8 ∧ FailedCrcAt vd6 (loaded vd6).slaveId 18 ∧
      (∀ k, 8 < k → k ≠ 18 → InScan vd6.length k → ∀ h l, ¬ ReplyAt vd6 (loaded vd6).slaveId k h l) := by
  refine ⟨vd6_holds, by decide, by decide, ⟨by decide, by decide⟩, ⟨by decide, by decide⟩, by decide,
    ⟨0xB8#8, 0x53#8, ?_, by decide +kernel⟩, ⟨0x12#8, 0x34#8, 0x4A#8, 0x33#8, ?_, by decide +kernel⟩, ?_⟩
  · unfold CandidateAt
    decide +kernel
  · unfold CandidateAt
    decide +kernel
  · rintro k h8 h18 ⟨_, hn⟩ h l hr
    have hlen : vd6.length = 27 := rfl
    have hk : k < 20 := by omega
    have hv := (verdictAt_reply vd6 0x01#8 k h l hn).mpr hr
    have hall : ∀ k : Fin 20, 8 < k.val → k.val ≠ 18 → verdictAt vd6 0x01#8 k.val = .skip := by decide +kernel
    rw [hall ⟨k, hk⟩ h8 h18] at hv
    cases hv

/-- V-D11 for the clause with a failed CRC, fifteen zero bytes (V-D2) for the clause without one. -/
theorem witness_DecodeWithoutReplyFails :
    ((loaded vd11).Holds vd11 ∧ 15 ≤ vd11.length ∧ vd11.length ≤ 300 ∧
      (∀ i, InScan vd11.length i → ∀ hi lo, ¬ ReplyAt vd11 (loaded vd11).slaveId i hi lo) ∧
      InScan vd11.length 8 ∧ FailedCrcAt vd11 (loaded vd11).slaveId 8) ∧
    ((loaded (List.replicate 15 0x00#8)).Holds (List.replicate 15 0x00#8) ∧
      (∀ i, InScan 15 i → ¬ FailedCrcAt (List.replicate 15 0x00#8) 0x01#8 i) ∧
      (∀ i, InScan 15 i → ∀ hi lo, ¬ ReplyAt (List.replicate 15 0x00#8) 0x01#8 i hi lo)) := by
  refine ⟨⟨vd11_holds, by decide, by decide, ?_, ⟨by decide, by decide⟩,
    ⟨0x12#8, 0x34#8, 0x4A#8, 0x33#8, ?_, by decide +kernel⟩⟩, ?_, ?_, ?_⟩
  · rintro i ⟨_, hn⟩ hi lo h
    have hlen : vd11.length = 17 := rfl
    have hv := (verdictAt_reply vd11 0x01#8 i hi lo hn).mpr h
    have hall : ∀ i : Fin 10, verdictAt vd11 0x01#8 i.val = .skip ∨ verdictAt vd11 0x01#8 i.val = .crcFail := by
      decide +kernel
    have hi10 : i < 10 := by omega
    rcases hall ⟨i, hi10⟩ with e | e <;> rw [hv] at e <;> cases e
  · unfold CandidateAt
    decide +kernel
  · rw [← State.bufBytes_eq_some]
    decide +kernel
  · rintro i _ ⟨_, _, _, _, ⟨h0, _⟩, _⟩
    have := List.getElem?_eq_some_iff.mp h0
    obtain ⟨hlt, he⟩ := this
    rw [List.getElem_replicate] at he
    exact absurd he (by decide)
  · rintro i _ hi lo ⟨_, _, ⟨h0, _⟩, _⟩
    have := List.getElem?_eq_some_iff.mp h0
    obtain ⟨hlt, he⟩ := this
    rw [List.getElem_replicate] at he
    exact absurd he (by decide)

/-- V-D3a, and the same with other bytes at 0 and 14, the first and the last. -/
theorem witness_DecodeReadsOnlyTheScannedBytes :
    (loaded vd3a).Holds vd3a ∧ (loaded ((vd3a.set 0 0x77#8).set 14 0x77#8)).Holds ((vd3a.set 0 0x77#8).set 14 0x77#8) ∧
      (loaded ((vd3a.set 0 0x77#8).set 14 0x77#8)).bufLen = (loaded vd3a).bufLen ∧
      (loaded vd3a).bufLen.toNat ≤ 300 ∧
      (∀ j, 5 ≤ j → j + 2 ≤ vd3a.length → ((vd3a.set 0 0x77#8).set 14 0x77#8)[j]? = vd3a[j]?) := by
  refine ⟨vd3a_holds, ?_, by decide, by decide, ?_⟩
  · rw [← State.bufBytes_eq_some]
    decide +kernel
  · intro j h5 hj
    have hlen : vd3a.length = 15 := rfl
    have hall : ∀ j : Fin 14, 5 ≤ j.val → ((vd3a.set 0 0x77#8).set 14 0x77#8)[j.val]? = vd3a[j.val]? := by
      decide +kernel
    exact hall ⟨j, by omega⟩ h5

theorem witness_RepeatedCommandsAgree :
    Instr.decode ≠ .encode ∧ ∃ t, exec .decode (loaded vd6) = .next t := ⟨by decide, _, rfl⟩

theorem witness_BytesBeyondBufLenNeverMatter :
    (∀ j, j < (loaded vd3a).bufLen.toNat →
      Memory.lookup ((loaded vd3a).buf ++ [(15, 0x99#8)]) j = Memory.lookup (loaded vd3a).buf j) ∧
    (∃ t, exec .decode (loaded vd3a) = .next t) ∧
    exec .crc16 { State.reset with bufLen := 1#9 } = .fault .unwrittenRead := by
  refine ⟨?_, ⟨_, rfl⟩, rfl⟩
  decide +kernel

/-- The read that shows SERIAL, and one that does not. -/
theorem witness_UnsetSerialIsSeenOnlyByItsRead :
    State.reset.serialValid = false ∧
    (∃ t, step (hostDoes [.read 0x00C#12 4]) = .next t) ∧
    (∃ t, step (hostDoes [.read 0x004#12 4]) = .next t) ∧
    (∀ rest, (hostDoes [.read 0x004#12 4]).pending ≠ .read 0x00C#12 4 :: rest) :=
  ⟨rfl, ⟨_, rfl⟩, ⟨_, rfl⟩, fun _ h => by cases h⟩

theorem witness_RequestIsBlankOrComplete :
    State.reset.RequestInv ∧ ∃ t, step State.reset = .next t := ⟨.inl rfl, _, rfl⟩

theorem witness_BufferStaysCanonical :
    lastWord.BufInv ∧ (nextState (step { lastWord with pending := [.write 0x200#12 4 1#32] })).isSome = true :=
  ⟨rfl, by decide +kernel⟩

theorem witness_ResetInputFromAnyState :
    ({ full with pending := [.reset] } : State).pending = .reset :: [] := rfl

theorem witness_LoadbufFillsTheBuffer :
    (List.replicate 300 0xFF#8).length ≤ 300 ∧
      (hostDoes (loadbuf (List.replicate 300 0xFF#8))).pending = loadbuf (List.replicate 300 0xFF#8) ++ [] :=
  ⟨by rw [List.length_replicate], (List.append_nil _).symm⟩

end Sys2Proof.Tests
end

section
/-! Proofs of the statements on the scope of the block (00_scope.md). -/

namespace Sys2Proof.Machine

/-- Settles O6: with nothing pending, idling is all a step can do (`step_nil`). -/
theorem blockIdlesWithoutHostAccess : Obligations.BlockIdlesWithoutHostAccess := by
  unfold Obligations.BlockIdlesWithoutHostAccess
  intro s hidle
  exact step_nil hidle

end Sys2Proof.Machine
end

section
/-! What a command, and then a step, can do to REQ, to BUF and to SERIAL_VALID, said once per field; and what a host
read of a register answers. -/

namespace Sys2Proof.Machine

/-- Everything a command that goes on can have done: a status other than OK and nothing else (R97), or its outputs
(R71, R73, R77, R86). -/
theorem exec_next_cases {i : Instr} {s t : State} (h : exec i s = .next t) :
    (∃ c, c ≠ .ok ∧ c.RaisedBy i ∧ t = s.setStatus c) ∨
    (∃ bytes, i = .crc16 ∧ s.Holds bytes ∧ t = { s with crcResult := crc16Modbus bytes, statusCode := .ok }) ∨
    (∃ bytes, i = .v5sum ∧ s.Holds bytes ∧ t = { s with sumResult := v5Checksum bytes, statusCode := .ok }) ∨
    (i = .encode ∧ s.serialValid = true ∧ t = { s with
      req := frame s.slaveId s.reqAddr s.reqCount s.serial s.seq
      seq := s.seq + 1#8
      statusCode := .ok }) ∨
    (∃ bytes hi lo, i = .decode ∧ s.Holds bytes ∧ scanAll bytes s.slaveId = .found hi lo ∧
      t = { s with resultValue := packHalf hi lo, resultSigned := signHint hi, statusCode := .ok }) := by
  cases i with
  | crc16 =>
    rcases execCrc16_cases s with ⟨_, e⟩ | ⟨_, _, e⟩ | ⟨bytes, _, hb, e⟩ <;> rw [e] at h <;> cases h
    · exact .inl ⟨.lenError, by simp, .inl rfl, rfl⟩
    · exact .inr (.inl ⟨bytes, rfl, hb, rfl⟩)
  | v5sum =>
    rcases execV5sum_cases s with ⟨_, e⟩ | ⟨_, _, e⟩ | ⟨bytes, _, hb, e⟩ <;> rw [e] at h <;> cases h
    · exact .inl ⟨.lenError, by simp, .inr (.inl rfl), rfl⟩
    · exact .inr (.inr (.inl ⟨bytes, rfl, hb, rfl⟩))
  | encode =>
    rcases execEncode_cases s with ⟨_, e⟩ | ⟨hv, e⟩ <;> rw [e] at h <;> cases h
    · exact .inl ⟨.configUnset, by simp, rfl, rfl⟩
    · exact .inr (.inr (.inr (.inl ⟨rfl, hv, rfl⟩)))
  | decode =>
    rcases execDecode_cases s with ⟨_, e⟩ | ⟨_, e⟩ | ⟨_, _, _, e⟩ | ⟨bytes, _, _, hb, e⟩ <;> rw [e] at h <;> cases h
    · exact .inl ⟨.lenError, by simp, .inr (.inr rfl), rfl⟩
    · exact .inl ⟨.malformedFrame, by simp, rfl, rfl⟩
    · rcases s.finishDecode_cases Config.crcMismatchDistinct (scanAll bytes s.slaveId) with
        ⟨hi, lo, hf, e⟩ | ⟨_, hd, e⟩ | ⟨_, _, _, e⟩ <;> rw [e]
      · exact .inr (.inr (.inr (.inr ⟨bytes, hi, lo, rfl, hb, hf, rfl⟩)))
      · exact .inl ⟨.checksumMismatch, by simp, ⟨rfl, hd⟩, rfl⟩
      · exact .inl ⟨.notFound, by simp, rfl, rfl⟩

/-- No command writes BUF (R48). -/
theorem exec_buf {i : Instr} {s t : State} (h : exec i s = .next t) : t.buf = s.buf := by
  rcases exec_next_cases h with
    ⟨_, _, _, rfl⟩ | ⟨_, _, _, rfl⟩ | ⟨_, _, _, rfl⟩ | ⟨_, _, rfl⟩ | ⟨_, _, _, _, _, _, rfl⟩ <;> rfl

/-- No command writes SERIAL_VALID (R23). -/
theorem exec_serialValid {i : Instr} {s t : State} (h : exec i s = .next t) : t.serialValid = s.serialValid := by
  rcases exec_next_cases h with
    ⟨_, _, _, rfl⟩ | ⟨_, _, _, rfl⟩ | ⟨_, _, _, rfl⟩ | ⟨_, _, rfl⟩ | ⟨_, _, _, _, _, _, rfl⟩ <;> rfl

/-- A command leaves REQ alone, or leaves the whole frame in it (R33, R77). -/
theorem exec_req {i : Instr} {s t : State} (h : exec i s = .next t) :
    t.req = s.req ∨ t.req = frame s.slaveId s.reqAddr s.reqCount s.serial s.seq := by
  rcases exec_next_cases h with
    ⟨_, _, _, rfl⟩ | ⟨_, _, _, rfl⟩ | ⟨_, _, _, rfl⟩ | ⟨_, _, rfl⟩ | ⟨_, _, _, _, _, _, rfl⟩
  · exact .inl rfl
  · exact .inl rfl
  · exact .inl rfl
  · exact .inr rfl
  · exact .inl rfl

/-- A CMD write that goes on was a command's, or an illegal word's (R60, R62, R63). -/
theorem runCommand_next_cases {v : Word} {s t : State} (h : runCommand v s = .next t) :
    (∃ i, decodeCommand v = .ok i ∧ exec i s = .next t) ∨ t = s.setStatus .illegalCmd := by
  rcases runCommand_cases v s with ⟨i, hd, e⟩ | ⟨_, _, e⟩ <;> rw [e] at h
  · exact .inl ⟨i, hd, h⟩
  · cases h
    exact .inr rfl

theorem runCommand_buf {v : Word} {s t : State} (h : runCommand v s = .next t) : t.buf = s.buf := by
  rcases runCommand_next_cases h with ⟨_, _, hx⟩ | rfl
  · exact exec_buf hx
  · rfl

theorem runCommand_serialValid {v : Word} {s t : State} (h : runCommand v s = .next t) :
    t.serialValid = s.serialValid := by
  rcases runCommand_next_cases h with ⟨_, _, hx⟩ | rfl
  · exact exec_serialValid hx
  · rfl

theorem runCommand_req {v : Word} {s t : State} (h : runCommand v s = .next t) :
    t.req = s.req ∨ t.req = frame s.slaveId s.reqAddr s.reqCount s.serial s.seq := by
  rcases runCommand_next_cases h with ⟨_, _, hx⟩ | rfl
  · exact exec_req hx
  · exact .inl rfl

/-- Every step leaves REQ alone, blanks it, or leaves a whole frame in it (R33). -/
theorem step_req {s t : State} (h : step s = .next t) :
    t.req = s.req ∨ t.req = State.reset.req ∨ t.req = frame s.slaveId s.reqAddr s.reqCount s.serial s.seq := by
  cases hp : s.pending with
  | nil =>
    rw [step_nil hp] at h
    cases h
    exact .inl rfl
  | cons e rest =>
    rcases step_cases hp h with
      ⟨_, _, _, rfl⟩ | ⟨_, _, hc⟩ | ⟨_, _, _, _, _, _, rfl⟩ | ⟨_, _, _, _, rfl⟩ | ⟨_, _, _, _, _, rfl⟩ | ⟨_, rfl⟩
    · exact .inl rfl
    · exact (runCommand_req hc).imp_right .inr
    · exact .inl rfl
    · exact .inl (State.writeReg_req _ _ _)
    · exact .inl rfl
    · exact .inr (.inl rfl)

/-- Every step leaves BUF alone, writes one of its 75 words, or empties it (R34, R35, R48). -/
theorem step_buf {s t : State} (h : step s = .next t) :
    t.buf = s.buf ∨ (∃ k v, k < 75 ∧ t.buf = (s.writeBufWord k v).buf) ∨ t.buf = State.reset.buf := by
  cases hp : s.pending with
  | nil =>
    rw [step_nil hp] at h
    cases h
    exact .inl rfl
  | cons e rest =>
    rcases step_cases hp h with
      ⟨_, _, _, rfl⟩ | ⟨_, _, hc⟩ | ⟨_, k, v, _, hk, _, rfl⟩ | ⟨_, _, _, _, rfl⟩ | ⟨_, _, _, _, _, rfl⟩ | ⟨_, rfl⟩
    · exact .inl rfl
    · exact .inl (runCommand_buf hc :)
    · exact .inr (.inl ⟨k, v, hk, rfl⟩)
    · exact .inl (State.writeReg_buf _ _ _)
    · exact .inl rfl
    · exact .inr (.inr rfl)

/-- A host write of a register other than SERIAL leaves SERIAL_VALID alone (R23). -/
theorem State.writeReg_serialValid_of_ne (s : State) (v : Word) {r : Reg} (hr : r ≠ .serial) :
    (s.writeReg v r).serialValid = s.serialValid := by
  cases r with
  | serial => exact absurd rfl hr
  | _ => rfl

/-- A host read of a register completes with the register's word and changes nothing of the block (R46, R52). -/
theorem step_readReg {s : State} {r : Reg} {rest : List HostEvent} (hp : s.pending = .read r.offset 4 :: rest) :
    step s = .next { s with pending := rest, readData := some (State.readReg { s with pending := rest } r) } := by
  rw [step_cons hp, perform, checkAccess_ok _ (aligned_offset r), memRead, readTarget_offset]

/-- SERIAL_VALID is bit 8 of the STATUS word (R28). -/
theorem State.statusWord_bit8 (s : State) : s.statusWord.getLsbD 8 = s.serialValid := by
  cases h : s.serialValid <;> cases hc : s.statusCode <;> simp [State.statusWord, StatusCode.code, h, hc]

end Sys2Proof.Machine
end

section
/-! Proofs of the statements on the state and its invariants (10_state.md): REQ, BUF, reset. -/

namespace Sys2Proof.Machine

/-- Whatever the registers hold, a frame has the fixed bytes of R83. -/
theorem frame_hasFixedBytes (sid : Byte) (addr cnt : Half) (ser : Word) (seq : Byte) :
    HasFixedBytes (frame sid addr cnt ser seq) := by
  refine ⟨rfl, rfl, rfl, rfl, rfl, rfl, rfl, fun ⟨j, hj⟩ hlo hhi => ?_, rfl, rfl⟩
  simp only at hlo hhi
  interval_cases j <;> rfl

/-- Whatever the registers hold, a frame's CRC and checksum validate it (R85). -/
theorem frame_selfValidates (sid : Byte) (addr cnt : Half) (ser : Word) (seq : Byte) :
    SelfValidates (frame sid addr cnt ser seq) :=
  ⟨(half_bytes (crc16Modbus (modbusRequest sid addr cnt))).symm, v5Checksum_frameLayout (y := 0x00#8) ..⟩

/-- Settles O44: a step leaves REQ, blanks it, or writes a frame (`step_req`), and every frame is complete. -/
theorem requestIsBlankOrComplete : Obligations.RequestIsBlankOrComplete := by
  unfold Obligations.RequestIsBlankOrComplete State.RequestInv
  intro s t hinv h
  rcases step_req h with e | e | e <;> rw [e]
  · exact hinv
  · exact .inl rfl
  · exact .inr ⟨frame_hasFixedBytes .., frame_selfValidates ..⟩

/-- Settles O46: a step leaves BUF, writes a word inside it, or empties it (`step_buf`). -/
theorem bufferStaysCanonical : Obligations.BufferStaysCanonical := by
  unfold Obligations.BufferStaysCanonical State.BufInv
  intro s t hinv h
  rcases step_buf h with e | ⟨k, v, hk, e⟩ | e <;> rw [e]
  · exact hinv
  · exact State.writeBufWord_wf s k v hk hinv
  · exact Memory.reset_wf

/-- Settles O45: reset's REQ is the blank one. -/
theorem resetRequestInvariant : Obligations.ResetRequestInvariant := .inl rfl

/-- Settles O47: reset's BUF has no cell. -/
theorem resetBufferInvariant : Obligations.ResetBufferInvariant := ⟨Memory.reset_wf, fun _ => rfl⟩

/-- Settles O48, field by field. -/
theorem resetValues : Obligations.ResetValues := by
  refine ⟨rfl, rfl, rfl, rfl, rfl, rfl, rfl, rfl, rfl, rfl, rfl, fun j => ?_, fun _ => rfl⟩
  exact Vector.getElem_replicate j.isLt

/-- A write of SERIAL sets SERIAL_VALID (R23). -/
theorem step_writeSerial {s t : State} {v : Word} {rest : List HostEvent}
    (hp : s.pending = .write 0x00C#12 4 v :: rest) (h : step s = .next t) : t.serialValid = true := by
  rw [step_cons hp] at h
  cases h
  rfl

/-- Only reset and a write of SERIAL touch SERIAL_VALID (R23). -/
theorem step_serialValid {s t : State} {e : HostEvent} {rest : List HostEvent} (hp : s.pending = e :: rest)
    (h : step s = .next t) (hreset : e ≠ .reset) (hw : ∀ v, e ≠ .write 0x00C#12 4 v) :
    t.serialValid = s.serialValid := by
  rcases step_cases hp h with
    ⟨_, _, _, rfl⟩ | ⟨_, _, hc⟩ | ⟨_, _, _, _, _, _, rfl⟩ | ⟨r, v, _, rfl, rfl⟩ | ⟨_, _, _, _, _, rfl⟩ | ⟨rfl, _⟩
  · rfl
  · exact (runCommand_serialValid hc :)
  · rfl
  · refine (State.writeReg_serialValid_of_ne _ v ?_ :)
    rintro rfl
    exact hw v rfl
  · rfl
  · exact absurd rfl hreset

/-- Settles O19: `step_writeSerial` and `step_serialValid` say which events touch SERIAL_VALID,
`State.statusWord_bit8` where STATUS shows it, `execEncode_cases` what ENCODE makes of it. -/
theorem serialValidFollowsSerialWrites : Obligations.SerialValidFollowsSerialWrites := by
  unfold Obligations.SerialValidFollowsSerialWrites
  refine ⟨rfl, fun s t e rest hp h => ⟨?_, ?_, step_serialValid hp h⟩, fun s t rest hp h => ?_, fun s t h => ?_⟩
  · rintro rfl
    rw [step_cons hp] at h
    cases h
    rfl
  · rintro ⟨v, rfl⟩
    exact step_writeSerial hp h
  · rw [step_readReg (r := .status) hp] at h
    cases h
    exact ⟨_, rfl, s.statusWord_bit8⟩
  · rcases execEncode_cases s with ⟨hv, e⟩ | ⟨hv, e⟩ <;> rw [e] at h <;> cases h <;> simp [hv]

end Sys2Proof.Machine
end

section
/-! The model's one fault (10_state.md R35, 60_exceptions.md R98, R99): where each operation answers it, from the
commands up to the step. -/

namespace Sys2Proof.Machine

/-- An opcode of the map is exactly its command's (R61). -/
theorem decodeOp_eq_ok (op : Byte) (i : Instr) : decodeOp op = .ok i ↔ op = opcodeOf i := by
  constructor
  · unfold decodeOp
    split_ifs <;> rintro ⟨⟩ <;> assumption
  · rintro rfl
    cases i <;> rfl

/-- The decoder reads a command from exactly the word the encoder writes for it (R60, R61). -/
theorem decodeCommand_eq_ok (v : Word) (i : Instr) : decodeCommand v = .ok i ↔ v = encodeCommand i := by
  constructor
  · unfold decodeCommand
    split_ifs with hr
    · intro h
      calc v = rsvdField v ++ opField v := commandWord_fields v
        _ = encodeCommand i := by rw [hr, (decodeOp_eq_ok _ _).mp h, encodeCommand]
    · nofun
  · rintro rfl
    cases i <;> rfl

/-- The buffer operand faults exactly over an unwritten byte, at a length that passes both length checks (R98). -/
theorem withBuffer_eq_fault (minLen : Nat) (s : State) (k : List Byte → State) (f : Fault) :
    withBuffer minLen s k = .fault f ↔ minLen ≤ s.bufLen.toNat ∧ s.bufLen.toNat ≤ 300 ∧ s.Unwritten := by
  cases f
  rcases withBuffer_cases minLen s k with ⟨hl, e⟩ | ⟨hl, hm, e⟩ | ⟨hl, hm, hu, e⟩ | ⟨_, hl, hm, hb, e⟩ <;> rw [e]
  · exact ⟨nofun, fun ⟨_, hl', _⟩ => by omega⟩
  · exact ⟨nofun, fun ⟨hm', _, _⟩ => by omega⟩
  · exact ⟨fun _ => ⟨hm, hl, hu⟩, fun _ => rfl⟩
  · exact ⟨nofun, fun ⟨_, _, hu⟩ => absurd hu hb.not_unwritten⟩

/-- A command word makes the model stop exactly where its command does (R98, R99). -/
theorem commandFaults_encodeCommand (i : Instr) (s : State) (f : Fault) :
    s.CommandFaults (encodeCommand i) ↔ exec i s = .fault f := by
  cases i with
  | crc16 => exact Iff.trans (by simp [State.CommandFaults, encodeCommand, opcodeOf]) (withBuffer_eq_fault 0 s _ f).symm
  | v5sum => exact Iff.trans (by simp [State.CommandFaults, encodeCommand, opcodeOf]) (withBuffer_eq_fault 0 s _ f).symm
  | encode =>
    rcases execEncode_cases s with ⟨_, e⟩ | ⟨_, e⟩ <;> simp [e, State.CommandFaults, encodeCommand, opcodeOf]
  | decode => exact Iff.trans (by simp [State.CommandFaults, encodeCommand, opcodeOf]) (withBuffer_eq_fault 15 s _ f).symm

/-- Only the words of the three commands that read BUF can make the model stop. -/
theorem State.CommandFaults.exists_encodeCommand {s : State} {v : Word} (h : s.CommandFaults v) :
    ∃ i, v = encodeCommand i := by
  obtain ⟨rfl | rfl | ⟨rfl, _⟩, _⟩ := h
  · exact ⟨.crc16, rfl⟩
  · exact ⟨.v5sum, rfl⟩
  · exact ⟨.decode, rfl⟩

theorem runCommand_eq_fault (v : Word) (s : State) (f : Fault) :
    runCommand v s = .fault f ↔ s.CommandFaults v := by
  rcases runCommand_cases v s with ⟨i, hd, e⟩ | ⟨_, hd, e⟩ <;> rw [e]
  · rw [(decodeCommand_eq_ok v i).mp hd, commandFaults_encodeCommand]
  · refine ⟨nofun, fun hf => ?_⟩
    obtain ⟨i, hv⟩ := hf.exists_encodeCommand
    rw [(decodeCommand_eq_ok v i).mpr hv] at hd
    cases hd

/-- A host write faults exactly where it runs a command that does (R46, R99). -/
theorem memWrite_eq_fault (off : Offset) (v : Word) (s : State) (f : Fault) :
    memWrite off v s = .fault f ↔ off = 0x000#12 ∧ s.CommandFaults v := by
  by_cases ho : off = 0x000#12
  · simp [ho, memWrite_cmd, runCommand_eq_fault]
  · rcases memWrite_cases off v s with ⟨ho', _⟩ | ⟨_, _, _, e⟩ | ⟨_, _, _, e⟩ | ⟨_, _, e⟩
    · exact absurd ho' ho
    all_goals simp [e, ho]

/-- At an aligned offset, the reads the model stops on are those `readTarget` has no word for (R46). -/
theorem State.readFaults_iff (s : State) {off : Offset} (ha : off.toNat % 4 = 0) :
    s.ReadFaults off ↔ s.readTarget (locate off) = none := by
  simp only [State.ReadFaults, readTarget_eq_none, ← State.bufWord_eq_none]
  constructor
  · rintro ⟨k, hk, ho, hn⟩
    have hoff : off = bufOffset k := BitVec.eq_of_toNat_eq (by rw [ho, bufOffset_toNat hk])
    exact ⟨k, by rw [hoff, locate_bufOffset hk], hn⟩
  · rintro ⟨k, hl, hn⟩
    obtain ⟨hk, _, _, hkeq⟩ := locate_eq_bufWord hl
    exact ⟨k, hk, by omega, hn⟩

theorem memRead_eq_fault {off : Offset} (ha : off.toNat % 4 = 0) (s : State) (f : Fault) :
    memRead off s = .fault f ↔ s.ReadFaults off := by
  cases f
  rw [s.readFaults_iff ha]
  rcases memRead_cases off s with ⟨_, hw, e⟩ | ⟨hn, e⟩
  · simp [e, hw]
  · simp [e, hn]

theorem checkAccess_eq_fault (off : Offset) (size : Nat) (a : Answer) (f : Fault) :
    checkAccess off size a = .fault f ↔ size = 4 ∧ off.toNat % 4 = 0 ∧ a = .fault f := by
  rcases checkAccess_cases off size a with ⟨hs, e⟩ | ⟨_, ha, e⟩ | ⟨hs, ha, e⟩
  · simp [e, hs]
  · simp [e, ha]
  · rw [e]
    exact ⟨fun h => ⟨hs, ha, h⟩, fun ⟨_, _, h⟩ => h⟩

/-- An event makes the model stop exactly where it reads an unwritten byte of BUF (R99). -/
theorem perform_eq_fault (e : HostEvent) (s : State) (f : Fault) : perform e s = .fault f ↔ s.EventFaults e := by
  cases e with
  | read off size =>
    rw [perform, checkAccess_eq_fault]
    constructor
    · rintro ⟨hs, ha, hf⟩
      exact ⟨hs, (memRead_eq_fault ha s f).mp hf⟩
    · rintro ⟨hs, hf⟩
      have ha : off.toNat % 4 = 0 := by
        obtain ⟨k, _, ho, _⟩ := hf
        omega
      exact ⟨hs, ha, (memRead_eq_fault ha s f).mpr hf⟩
  | write off size v =>
    rw [perform, checkAccess_eq_fault, memWrite_eq_fault]
    constructor
    · rintro ⟨hs, _, hf⟩
      exact ⟨hs, hf⟩
    · rintro ⟨hs, rfl, hf⟩
      exact ⟨hs, rfl, rfl, hf⟩
  | reset => exact ⟨nofun, nofun⟩

/-- What an event reads of BUF does not depend on the events to come. -/
theorem State.eventFaults_pending (s : State) (p : List HostEvent) (e : HostEvent) :
    State.EventFaults { s with pending := p } e ↔ s.EventFaults e := by
  cases e <;> exact Iff.rfl

/-- Settles O10: the step is its oldest event, and `perform_eq_fault` says where that stops. -/
theorem faultsExactlyOnUnwrittenReads : Obligations.FaultsExactlyOnUnwrittenReads := by
  unfold Obligations.FaultsExactlyOnUnwrittenReads
  intro s f
  cases hp : s.pending with
  | nil => simp [step_nil hp]
  | cons e rest =>
    rw [step_cons hp, perform_eq_fault, State.eventFaults_pending]
    constructor
    · exact fun h => ⟨e, rest, rfl, h⟩
    · rintro ⟨_, _, ⟨⟩, h⟩
      exact h

end Sys2Proof.Machine
end

section
/-! Replacing SERIAL while SERIAL_VALID = 0 (10_state.md R22, 41_encode.md R79): each operation's answer is the same
with SERIAL replaced, except a read of SERIAL itself. -/

namespace Sys2Proof.Machine

/-- The state with another word in SERIAL, SERIAL_VALID as it was. -/
def State.withSerial (s : State) (w : Word) : State := { s with serial := w }

/-- An answer with another word in its next state's SERIAL. -/
def answerWithSerial (w : Word) : Answer → Answer
  | .next t => .next (t.withSerial w)
  | .fault f => .fault f
  | .refused r => .refused r

/-- The buffer operand does not read SERIAL. -/
theorem withBuffer_withSerial {minLen : Nat} {s : State} {k k' : List Byte → State} {w : Word}
    (hk : ∀ bytes, k' bytes = (k bytes).withSerial w) :
    withBuffer minLen (s.withSerial w) k' = answerWithSerial w (withBuffer minLen s k) := by
  rcases withBuffer_cases minLen s k with ⟨hl, e⟩ | ⟨hl, hm, e⟩ | ⟨hl, hm, hu, e⟩ | ⟨bytes, hl, hm, hb, e⟩ <;> rw [e]
  · exact withBuffer_tooLong minLen (s.withSerial w) k' hl
  · exact withBuffer_tooShort minLen (s.withSerial w) k' hl hm
  · exact withBuffer_unwritten minLen (s.withSerial w) k' hl hm hu
  · rw [withBuffer_holds minLen (s.withSerial w) k' bytes hl hm hb, hk]
    rfl

theorem State.finishDecode_withSerial (s : State) (w : Word) (distinct : Bool) (r : ScanResult) :
    (s.withSerial w).finishDecode distinct r = (s.finishDecode distinct r).withSerial w := by
  cases r <;> rfl

theorem execEncode_unset {s : State} (hv : s.serialValid = false) :
    exec .encode s = .next (s.setStatus .configUnset) := by
  simp [exec, execEncode, hv, raiseStatus]

/-- No command depends on SERIAL while SERIAL_VALID = 0 (R79). -/
theorem exec_withSerial {s : State} (hv : s.serialValid = false) (i : Instr) (w : Word) :
    exec i (s.withSerial w) = answerWithSerial w (exec i s) := by
  cases i with
  | crc16 => exact withBuffer_withSerial fun _ => rfl
  | v5sum => exact withBuffer_withSerial fun _ => rfl
  | encode =>
    rw [execEncode_unset hv, execEncode_unset (s := s.withSerial w) hv]
    rfl
  | decode => exact withBuffer_withSerial fun bytes => s.finishDecode_withSerial w _ _

theorem runCommand_withSerial {s : State} (hv : s.serialValid = false) (v w : Word) :
    runCommand v (s.withSerial w) = answerWithSerial w (runCommand v s) := by
  cases hd : decodeCommand v with
  | ok i => simpa only [runCommand, hd] using exec_withSerial hv i w
  | error _ => simp only [runCommand, hd]; rfl

/-- Only the read of SERIAL itself shows SERIAL (R22, R46). -/
theorem readTarget_withSerial (s : State) (w : Word) {tgt : Target} (h : tgt ≠ .reg .serial) :
    (s.withSerial w).readTarget tgt = s.readTarget tgt := by
  cases tgt with
  | reg r =>
    cases r with
    | serial => exact absurd rfl h
    | _ => rfl
  | _ => rfl

theorem memRead_withSerial (s : State) (w : Word) {off : Offset} (ho : off ≠ 0x00C#12) :
    memRead off (s.withSerial w) = answerWithSerial w (memRead off s) := by
  have ht := readTarget_withSerial s w fun hl => ho ((locate_eq_reg off .serial).mp hl)
  rw [memRead, memRead, ht]
  cases s.readTarget (locate off) <;> rfl

theorem memWrite_withSerial {s : State} (hv : s.serialValid = false) (v w : Word) {off : Offset}
    (ho : off ≠ 0x00C#12) : memWrite off v (s.withSerial w) = answerWithSerial w (memWrite off v s) := by
  unfold memWrite
  cases hl : locate off with
  | reg r =>
    cases r with
    | cmd => exact runCommand_withSerial hv v w
    | serial => exact absurd ((locate_eq_reg off .serial).mp hl) ho
    | _ => rfl
  | _ => rfl

theorem checkAccess_withSerial (off : Offset) (size : Nat) (w : Word) (a : Answer) :
    checkAccess off size (answerWithSerial w a) = answerWithSerial w (checkAccess off size a) := by
  unfold checkAccess
  split_ifs <;> rfl

/-- An event that neither reads nor replaces SERIAL does the same with another word in it (R22, R79). -/
theorem perform_withSerial {s : State} (hv : s.serialValid = false) (w : Word) {e : HostEvent}
    (hr : e ≠ .read 0x00C#12 4) (hw : ∀ v, e ≠ .write 0x00C#12 4 v) (hreset : e ≠ .reset) :
    perform e (s.withSerial w) = answerWithSerial w (perform e s) := by
  cases e with
  | read off size =>
    by_cases hs : size = 4
    · subst hs
      have ho : off ≠ 0x00C#12 := by
        rintro rfl
        exact hr rfl
      rw [perform, perform, memRead_withSerial s w ho, checkAccess_withSerial]
    · simp [perform, checkAccess, hs, answerWithSerial]
  | write off size v =>
    by_cases hs : size = 4
    · subst hs
      have ho : off ≠ 0x00C#12 := by
        rintro rfl
        exact hw v rfl
      rw [perform, perform, memWrite_withSerial hv v w ho, checkAccess_withSerial]
    · simp [perform, checkAccess, hs, answerWithSerial]
  | reset => exact absurd rfl hreset

/-- What replacing an unset SERIAL does to a step: nothing, or it is carried along unseen, or the event reads it. -/
theorem step_withSerial_cases {s : State} (hv : s.serialValid = false) (w : Word) :
    step (s.withSerial w) = step s ∨
    (step (s.withSerial w) = answerWithSerial w (step s) ∧ ∀ t, step s = .next t → t.serialValid = false) ∨
    (∃ rest, s.pending = .read 0x00C#12 4 :: rest) := by
  cases hp : s.pending with
  | nil =>
    have hp' : (s.withSerial w).pending = [] := hp
    rw [step_nil hp, step_nil hp']
    exact .inr (.inl ⟨rfl, fun t ht => by cases ht; exact hv⟩)
  | cons e rest =>
    have hp' : (s.withSerial w).pending = e :: rest := hp
    by_cases hr : e = .read 0x00C#12 4
    · exact .inr (.inr ⟨rest, by rw [hr]⟩)
    by_cases hw : ∃ v, e = .write 0x00C#12 4 v
    · obtain ⟨v, rfl⟩ := hw
      rw [step_cons hp, step_cons hp']
      exact .inl rfl
    by_cases hreset : e = .reset
    · subst hreset
      rw [step_cons hp, step_cons hp']
      exact .inl rfl
    have hw' : ∀ v, e ≠ .write 0x00C#12 4 v := fun v he => hw ⟨v, he⟩
    refine .inr (.inl ⟨?_, fun t ht => (step_serialValid hp ht hreset hw').trans hv⟩)
    rw [step_cons hp, step_cons hp']
    exact perform_withSerial (s := { s with pending := rest }) hv w hr hw' hreset

/-- Settles O43, along `step_withSerial_cases`. -/
theorem unsetSerialIsSeenOnlyByItsRead : Obligations.UnsetSerialIsSeenOnlyByItsRead := by
  unfold Obligations.UnsetSerialIsSeenOnlyByItsRead
  intro s w hv
  rw [show ({ s with serial := w } : State) = s.withSerial w from rfl]
  rcases step_withSerial_cases hv w with e | ⟨e, hkeep⟩ | ⟨rest, hp⟩
  · rw [e]
    exact ⟨fun t ht => ⟨t, ht, rfl, fun _ => rfl, fun _ => rfl⟩, fun _ hf => hf, fun _ hr => hr⟩
  · rw [e]
    refine ⟨fun t ht => ⟨t.withSerial w, by rw [ht]; rfl, rfl, fun hset => ?_, fun _ => rfl⟩,
      fun f hf => by rw [hf]; rfl, fun r hr => by rw [hr]; rfl⟩
    rw [hkeep t ht] at hset
    cases hset
  · have hp' : (s.withSerial w).pending = .read Reg.serial.offset 4 :: rest := hp
    rw [step_readReg (r := .serial) hp, step_readReg hp']
    refine ⟨?_, nofun, nofun⟩
    rintro _ ⟨⟩
    refine ⟨_, rfl, rfl, fun hset => ?_, fun hne => absurd hp (hne rest)⟩
    exact absurd (hv.symm.trans hset) (by decide)

end Sys2Proof.Machine
end

section
/-! One host access as the step carries it out (20_memory.md R41, R42, R46): what a step that takes a read or a write
answers, at each kind of offset, and that no event but a malformed access is refused. -/

namespace Sys2Proof.Machine

/-! ### The check on an access -/

theorem checkAccess_eq_next {off : Offset} {size : Nat} {a : Answer} {t : State} :
    checkAccess off size a = .next t ↔ size = 4 ∧ off.toNat % 4 = 0 ∧ a = .next t := by
  rcases checkAccess_cases off size a with ⟨hs, e⟩ | ⟨_, ha, e⟩ | ⟨hs, ha, e⟩
  · simp [e, hs]
  · simp [e, ha]
  · rw [e]
    simp [hs, ha]

/-- An access that would not be refused by itself is refused for its width or its alignment only (R41, R42). -/
theorem checkAccess_eq_refused {off : Offset} {size : Nat} {a : Answer} {r : Refusal} (ha : a ≠ .refused r) :
    checkAccess off size a = .refused r ↔
      (size ≠ 4 ∧ r = .notWordAccess) ∨ (size = 4 ∧ off.toNat % 4 ≠ 0 ∧ r = .misalignedAccess) := by
  rcases checkAccess_cases off size a with ⟨hs, e⟩ | ⟨hs, hal, e⟩ | ⟨hs, hal, e⟩ <;> rw [e]
  · simp [hs, eq_comm]
  · simp [hs, hal, eq_comm]
  · simp [hs, hal, ha]

theorem memRead_not_refused (off : Offset) (s : State) (r : Refusal) : memRead off s ≠ .refused r := by
  rcases memRead_cases off s with ⟨_, _, e⟩ | ⟨_, e⟩ <;> simp [e]

theorem runCommand_not_refused (v : Word) (s : State) (r : Refusal) : runCommand v s ≠ .refused r := by
  rcases runCommand_cases v s with ⟨i, _, e⟩ | ⟨_, _, e⟩ <;> rw [e]
  · exact exec_not_refused i s r
  · nofun

theorem memWrite_not_refused (off : Offset) (v : Word) (s : State) (r : Refusal) : memWrite off v s ≠ .refused r := by
  rcases memWrite_cases off v s with ⟨_, e⟩ | ⟨_, _, _, e⟩ | ⟨_, _, _, e⟩ | ⟨_, _, e⟩ <;> rw [e]
  · exact runCommand_not_refused v s r
  all_goals nofun

/-! ### A host read -/

/-- A step that takes an aligned read is that read (R41, R46). -/
theorem step_read {s : State} {off : Offset} {rest : List HostEvent} (hp : s.pending = .read off 4 :: rest)
    (ha : aligned off = true) : step s = memRead off { s with pending := rest } := by
  rw [step_cons hp, perform, checkAccess_ok _ ha]

/-- A read completes with the word its target has, the events to come playing no part (R46, R52). -/
theorem step_read_eq_next {s : State} {off : Offset} {w : Word} {rest : List HostEvent}
    (hp : s.pending = .read off 4 :: rest) (ha : aligned off = true) (hw : s.readTarget (locate off) = some w) :
    step s = .next { s with pending := rest, readData := some w } := by
  have hw' : State.readTarget { s with pending := rest } (locate off) = some w :=
    (readTarget_hostSide s s.readData rest _).trans hw
  rw [step_read hp ha, memRead, hw']

/-- A read that completes was an aligned one of 32 bits, and did nothing but return the word of its target (R46). -/
theorem step_read_next {s t : State} {off : Offset} {size : Nat} {rest : List HostEvent}
    (hp : s.pending = .read off size :: rest) (h : step s = .next t) :
    size = 4 ∧ aligned off = true ∧
      ∃ w, s.readTarget (locate off) = some w ∧ t = { s with pending := rest, readData := some w } := by
  rw [step_cons hp] at h
  obtain ⟨hs, ha, hr⟩ := checkAccess_eq_next.mp h
  rcases memRead_cases off { s with pending := rest } with ⟨w, hw, e⟩ | ⟨_, e⟩ <;> rw [e] at hr <;> cases hr
  exact ⟨hs, (aligned_iff off).mpr ha, w, (readTarget_hostSide s s.readData rest _).symm.trans hw, rfl⟩

/-! ### A host write -/

/-- A step that takes an aligned write is that write (R41, R46). -/
theorem step_write {s : State} {off : Offset} {v : Word} {rest : List HostEvent}
    (hp : s.pending = .write off 4 v :: rest) (ha : aligned off = true) :
    step s = memWrite off v { s with pending := rest } := by
  rw [step_cons hp, perform, checkAccess_ok _ ha]

/-- A write that goes on was an aligned one (R42). -/
theorem step_write_next {s t : State} {off : Offset} {v : Word} {rest : List HostEvent}
    (hp : s.pending = .write off 4 v :: rest) (h : step s = .next t) :
    aligned off = true ∧ memWrite off v { s with pending := rest } = .next t := by
  rw [step_cons hp] at h
  obtain ⟨_, ha, hw⟩ := checkAccess_eq_next.mp h
  exact ⟨(aligned_iff off).mpr ha, hw⟩

/-- A write of a register other than CMD stores its field (R46). -/
theorem memWrite_offset {r : Reg} (hr : r ≠ .cmd) (v : Word) (s : State) :
    memWrite r.offset v s = .next (s.writeReg v r) := by
  cases r with
  | cmd => exact absurd rfl hr
  | _ => rfl

/-- A write of a word of BUF stores its four bytes (R46, R48). -/
theorem memWrite_bufWord {off : Offset} {k : Nat} (hl : locate off = .bufWord k) (v : Word) (s : State) :
    memWrite off v s = .next (s.writeBufWord k v) := by
  rw [memWrite, hl]

/-- REQ ignores writes (R47). -/
theorem memWrite_reqWord {off : Offset} {k : Nat} (hl : locate off = .reqWord k) (v : Word) (s : State) :
    memWrite off v s = .next s := by
  rw [memWrite, hl]

/-- Reserved space ignores writes (R43). -/
theorem memWrite_reserved {off : Offset} (hl : locate off = .reserved) (v : Word) (s : State) :
    memWrite off v s = .next s := by
  rw [memWrite, hl]

theorem step_writeReg {s : State} {r : Reg} {v : Word} {rest : List HostEvent} (hr : r ≠ .cmd)
    (hp : s.pending = .write r.offset 4 v :: rest) :
    step s = .next (State.writeReg { s with pending := rest } v r) := by
  rw [step_write hp (aligned_offset r), memWrite_offset hr]

/-! ### The events to come -/

/-- No command touches the events to come. -/
theorem exec_pending {i : Instr} {s t : State} (h : exec i s = .next t) : t.pending = s.pending := by
  rcases exec_next_cases h with
    ⟨_, _, _, rfl⟩ | ⟨_, _, _, rfl⟩ | ⟨_, _, _, rfl⟩ | ⟨_, _, rfl⟩ | ⟨_, _, _, _, _, _, rfl⟩ <;> rfl

theorem runCommand_pending {v : Word} {s t : State} (h : runCommand v s = .next t) : t.pending = s.pending := by
  rcases runCommand_next_cases h with ⟨_, _, hx⟩ | rfl
  · exact exec_pending hx
  · rfl

end Sys2Proof.Machine
end

section
/-! What the words of the window hold (20_memory.md R43 to R48): fields in words, reserved bits and reserved offsets,
the bytes of BUF words. -/

namespace Sys2Proof.Machine

/-! ### Fields in words -/

/-- A word with a field's value is the field zero-extended (R46). -/
theorem eq_setWidth_of_toNat_eq {n : Nat} {x : BitVec n} {w : Word} (hn : n ≤ 32) (h : w.toNat = x.toNat) :
    w = x.setWidth 32 :=
  BitVec.eq_of_toNat_eq (h.trans (BitVec.toNat_setWidth_of_le hn).symm)

theorem State.statusWord_toNat (s : State) :
    s.statusWord.toNat = (if s.serialValid then 256 else 0) + s.statusCode.code.toNat := by
  cases hv : s.serialValid <;> cases hc : s.statusCode <;> simp [State.statusWord, StatusCode.code, hv, hc]

theorem State.resultWord_toNat (s : State) :
    s.resultWord.toNat = (if s.resultSigned then 65536 else 0) + s.resultValue.toNat := by
  rw [State.resultWord, BitVec.toNat_setWidth_of_le (by decide), BitVec.toNat_append,
    ← Nat.shiftLeft_add_eq_or_of_lt s.resultValue.isLt]
  cases s.resultSigned <;> rfl

/-- A field of `n` low bits leaves the word's other bits 0. -/
theorem setWidth_and_not_allOnes {n : Nat} (x : BitVec n) :
    x.setWidth 32 &&& ~~~((BitVec.allOnes n).setWidth 32) = 0#32 := by
  ext i hi
  by_cases h : i < n
  · simp [h]
  · simp [BitVec.getLsbD_of_ge x i (by omega)]

/-- A field of `n` low bits takes the same from two words that agree on those bits. -/
theorem setWidth_eq_of_and_allOnes_eq {n : Nat} {v v' : Word} (hn : n ≤ 32)
    (h : v &&& (BitVec.allOnes n).setWidth 32 = v' &&& (BitVec.allOnes n).setWidth 32) :
    v.setWidth n = v'.setWidth n := by
  have hmask : ((BitVec.allOnes n).setWidth 32).setWidth n = BitVec.allOnes n :=
    (BitVec.setWidth_setWidth_of_le _ hn).trans (BitVec.setWidth_eq _)
  simpa [BitVec.setWidth_and, hmask] using congrArg (BitVec.setWidth n) h

/-- The reserved bits of a register read 0 (R43). -/
theorem State.readReg_and_not_fieldMask (s : State) (r : Reg) : s.readReg r &&& ~~~r.fieldMask = 0#32 := by
  cases r with
  | cmd => exact BitVec.zero_and
  | status => cases hv : s.serialValid <;> cases hc : s.statusCode <;>
      simp [State.readReg, State.statusWord, StatusCode.code, hv, hc, Reg.fieldMask]
  | slaveId => exact setWidth_and_not_allOnes s.slaveId
  | serial => exact BitVec.and_zero
  | seq => exact setWidth_and_not_allOnes s.seq
  | reqAddr => exact setWidth_and_not_allOnes s.reqAddr
  | reqCount => exact setWidth_and_not_allOnes s.reqCount
  | bufLen => exact setWidth_and_not_allOnes s.bufLen
  | result => exact setWidth_and_not_allOnes (BitVec.ofBool s.resultSigned ++ s.resultValue)
  | crcResult => exact setWidth_and_not_allOnes s.crcResult
  | sumResult => exact setWidth_and_not_allOnes s.sumResult

/-- Two words that agree on a register's field bits have the same effect when written there (R43). -/
theorem memWrite_offset_congr {r : Reg} {v v' : Word} (h : v &&& r.fieldMask = v' &&& r.fieldMask) (s : State) :
    memWrite r.offset v s = memWrite r.offset v' s := by
  have hlow : ∀ n ≤ 32, (BitVec.allOnes n).setWidth 32 = r.fieldMask → v.setWidth n = v'.setWidth n :=
    fun n hn hm => setWidth_eq_of_and_allOnes_eq hn (by rw [hm, h])
  cases r with
  | cmd => rw [show v = v' by simpa using hlow 32 le_rfl rfl]
  | serial => rw [show v = v' by simpa using hlow 32 le_rfl rfl]
  | slaveId => simp only [memWrite_offset (r := .slaveId) nofun, State.writeReg, hlow 8 (by decide) rfl]
  | seq => simp only [memWrite_offset (r := .seq) nofun, State.writeReg, hlow 8 (by decide) rfl]
  | reqAddr => simp only [memWrite_offset (r := .reqAddr) nofun, State.writeReg, hlow 16 (by decide) rfl]
  | reqCount => simp only [memWrite_offset (r := .reqCount) nofun, State.writeReg, hlow 16 (by decide) rfl]
  | bufLen => simp only [memWrite_offset (r := .bufLen) nofun, State.writeReg, hlow 9 (by decide) rfl]
  | status => rfl
  | result => rfl
  | crcResult => rfl
  | sumResult => rfl

/-! ### Reserved offsets and the REQ window -/

theorem Reg.offset_toNat_le (r : Reg) : r.offset.toNat ≤ 0x28 := by
  cases r <;> decide

/-- The reserved ranges name nothing (R43, R45). -/
theorem locate_of_reservedOffset {off : Offset} (h : ReservedOffset off) : locate off = .reserved := by
  unfold ReservedOffset at h
  rcases locate_cases off with ⟨_, _, _⟩ | ⟨_, _, _⟩ | ⟨r, rfl, _⟩ | ⟨_, _, _, e⟩
  · omega
  · omega
  · have := r.offset_toNat_le
    omega
  · exact e

/-- Word k of the REQ window is four bytes of REQ (R44, R47). -/
theorem State.reqWord_eq (s : State) {k : Nat} (hk : k < 9) :
    s.reqWord k = s.req[4 * k + 3] ++ s.req[4 * k + 2] ++ s.req[4 * k + 1] ++ s.req[4 * k] := by
  rw [State.reqWord, State.reqByte_eq, State.reqByte_eq, State.reqByte_eq, State.reqByte_eq, packWord]

/-! ### Words of BUF -/

/-- Word k of BUF, read from its four written bytes (R44, R48). -/
theorem State.bufWord_eq_some {s : State} {k : Nat} {b0 b1 b2 b3 : Byte} (h0 : s.bufByte (4 * k) = some b0)
    (h1 : s.bufByte (4 * k + 1) = some b1) (h2 : s.bufByte (4 * k + 2) = some b2)
    (h3 : s.bufByte (4 * k + 3) = some b3) : s.bufWord k = some (packWord b0 b1 b2 b3) := by
  rw [State.bufWord, h0, h1, h2, h3]

/-- A byte of the BUF word just written is that byte of the word (R44, R46). -/
theorem State.bufByte_writeBufWord_same (s : State) (k : Nat) (v : Word) {m : Nat} (hm : m < 4) :
    (s.writeBufWord k v).bufByte (4 * k + m) = some (byteOf v m) := by
  rw [State.bufByte_writeBufWord, if_pos (by omega), Nat.add_sub_cancel_left]

theorem State.bufByte_writeBufWord_of_outside (s : State) (v : Word) {k j : Nat} (hj : j < 4 * k ∨ 4 * k + 4 ≤ j) :
    (s.writeBufWord k v).bufByte j = s.bufByte j := by
  rw [State.bufByte_writeBufWord, if_neg (by omega)]

/-- A BUF word reads back as it was written (R48). -/
@[simp] theorem State.bufWord_writeBufWord (s : State) (k : Nat) (v : Word) :
    (s.writeBufWord k v).bufWord k = some v := by
  have hb := fun m (hm : m < 4) => s.bufByte_writeBufWord_same k v hm
  rw [State.bufWord_eq_some (hb 0 (by decide)) (hb 1 (by decide)) (hb 2 (by decide)) (hb 3 (by decide)),
    packWord_byteOf]

/-- Nothing is listed below the bound of a canonical memory. -/
theorem Memory.lookup_eq_none_of_lt {hi a : Nat} (m : List Host.Cell) :
    ∀ lo, a < lo → Memory.wfFrom hi lo m = true → Memory.lookup m a = none := by
  induction m with
  | nil => intros; rfl
  | cons c rest ih =>
    intro lo ha h
    simp only [Memory.wfFrom, Bool.and_eq_true, decide_eq_true_eq] at h
    obtain ⟨⟨hlo, _⟩, hrest⟩ := h
    rw [Memory.lookup_cons, if_neg (by omega)]
    exact ih _ (by omega) hrest

/-- Writing a byte a canonical memory already holds there changes nothing. -/
theorem Memory.insert_eq_self {hi a : Nat} {v : Byte} (m : List Host.Cell) :
    ∀ lo, Memory.wfFrom hi lo m = true → Memory.lookup m a = some v → Memory.insert m a v = m := by
  induction m with
  | nil => nofun
  | cons c rest ih =>
    intro lo h hl
    simp only [Memory.wfFrom, Bool.and_eq_true, decide_eq_true_eq] at h
    obtain ⟨-, hrest⟩ := h
    rw [Memory.lookup_cons] at hl
    rcases lt_trichotomy a c.1 with hlt | rfl | hgt
    · rw [if_neg (by omega), Memory.lookup_eq_none_of_lt rest _ (by omega) hrest] at hl
      cases hl
    · rw [if_pos rfl] at hl
      cases hl
      simp [Memory.insert]
    · rw [if_neg (by omega)] at hl
      rw [Memory.insert, if_neg (by omega), if_neg (by omega), ih _ hrest hl]

/-- Writing a BUF word that BUF already holds changes nothing (R52). -/
theorem State.writeBufWord_eq_self {s : State} {k : Nat} {v : Word} (hinv : s.BufInv)
    (hb : ∀ m, m < 4 → s.bufByte (4 * k + m) = some (byteOf v m)) : s.writeBufWord k v = s := by
  have hself : ∀ m, m < 4 → Memory.insert s.buf (4 * k + m) (byteOf v m) = s.buf :=
    fun m hm => Memory.insert_eq_self s.buf 0 hinv (hb m hm)
  have hfirst : Memory.insert s.buf (4 * k) (byteOf v 0) = s.buf := hself 0 (by decide)
  rw [State.writeBufWord, hfirst, hself 1 (by decide), hself 2 (by decide), hself 3 (by decide)]

end Sys2Proof.Machine
end

section
/-! Replacing BUF beyond BUF_LEN (20_memory.md R48, 40_checksum.md R71): every command's answer is the same with the
cells replaced. -/

namespace Sys2Proof.Machine

/-- The state with other cells in BUF. -/
def State.withBuf (s : State) (m : List Host.Cell) : State := { s with buf := m }

/-- An answer with other cells in its next state's BUF. -/
def answerWithBuf (m : List Host.Cell) : Answer → Answer
  | .next t => .next (t.withBuf m)
  | .fault f => .fault f
  | .refused r => .refused r

/-- The cells read as BUF does below BUF_LEN (R48). -/
def State.AgreesBelowBufLen (s : State) (m : List Host.Cell) : Prop :=
  ∀ j, j < s.bufLen.toNat → Memory.lookup m j = Memory.lookup s.buf j

theorem State.AgreesBelowBufLen.holds {s : State} {m : List Host.Cell} {bytes : List Byte}
    (hm : s.AgreesBelowBufLen m) (h : s.Holds bytes) : (s.withBuf m).Holds bytes := by
  obtain ⟨hlen, hbytes⟩ := h
  exact ⟨hlen, fun j hj => (hm j (hlen ▸ hj)).trans (hbytes j hj)⟩

theorem State.AgreesBelowBufLen.unwritten {s : State} {m : List Host.Cell}
    (hm : s.AgreesBelowBufLen m) (h : s.Unwritten) : (s.withBuf m).Unwritten := by
  obtain ⟨j, hj, hw⟩ := h
  exact ⟨j, hj, (congrArg Option.isSome (hm j hj)).trans hw⟩

/-- The buffer operand reads BUF below BUF_LEN only (R48). -/
theorem withBuffer_withBuf {minLen : Nat} {s : State} {m : List Host.Cell} {k k' : List Byte → State}
    (hm : s.AgreesBelowBufLen m) (hk : ∀ bytes, k' bytes = (k bytes).withBuf m) :
    withBuffer minLen (s.withBuf m) k' = answerWithBuf m (withBuffer minLen s k) := by
  rcases withBuffer_cases minLen s k with ⟨hl, e⟩ | ⟨hl, hmin, e⟩ | ⟨hl, hmin, hu, e⟩ | ⟨bytes, hl, hmin, hb, e⟩ <;>
    rw [e]
  · exact withBuffer_tooLong minLen (s.withBuf m) k' hl
  · exact withBuffer_tooShort minLen (s.withBuf m) k' hl hmin
  · exact withBuffer_unwritten minLen (s.withBuf m) k' hl hmin (hm.unwritten hu)
  · rw [withBuffer_holds minLen (s.withBuf m) k' bytes hl hmin (hm.holds hb), hk]
    rfl

theorem State.finishDecode_withBuf (s : State) (m : List Host.Cell) (distinct : Bool) (r : ScanResult) :
    (s.withBuf m).finishDecode distinct r = (s.finishDecode distinct r).withBuf m := by
  cases r <;> rfl

/-- No command depends on BUF at or above BUF_LEN (R48, R71). -/
theorem exec_withBuf {s : State} {m : List Host.Cell} (hm : s.AgreesBelowBufLen m) (i : Instr) :
    exec i (s.withBuf m) = answerWithBuf m (exec i s) := by
  cases i with
  | crc16 => exact withBuffer_withBuf hm fun _ => rfl
  | v5sum => exact withBuffer_withBuf hm fun _ => rfl
  | encode =>
    have hv' : (s.withBuf m).serialValid = s.serialValid := rfl
    simp only [exec, execEncode, hv']
    split <;> rfl
  | decode => exact withBuffer_withBuf hm fun _ => s.finishDecode_withBuf m _ _

/-- Settles O42, along `exec_withBuf`. -/
theorem bytesBeyondBufLenNeverMatter : Obligations.BytesBeyondBufLenNeverMatter := by
  unfold Obligations.BytesBeyondBufLenNeverMatter
  intro i s m hm
  have hx : exec i { s with buf := m } = answerWithBuf m (exec i s) := exec_withBuf hm i
  rw [hx]
  exact ⟨fun t ht => by rw [ht]; rfl, fun f hf => by rw [hf]; rfl⟩

end Sys2Proof.Machine
end

section
/-! Proofs of the statements on the register window (20_memory.md). -/

namespace Sys2Proof.Machine

/-- Settles O7: `step_cases` says what a step with an event can have done, and none of it touches the later events. -/
theorem eachStepTakesOneEvent : Obligations.EachStepTakesOneEvent := by
  unfold Obligations.EachStepTakesOneEvent
  intro s t e rest hp h
  rcases step_cases hp h with
    ⟨_, _, _, rfl⟩ | ⟨_, _, hc⟩ | ⟨_, _, _, _, _, _, rfl⟩ | ⟨_, _, _, _, rfl⟩ | ⟨_, _, _, _, _, rfl⟩ | ⟨_, rfl⟩
  · rfl
  · exact (runCommand_pending hc :)
  · rfl
  · exact State.writeReg_pending _ _ _
  · rfl
  · rfl

/-- Settles O9: only `checkAccess` refuses (`checkAccess_eq_refused`); neither access and no command does. -/
theorem refusesExactlyTheNonTransactions : Obligations.RefusesExactlyTheNonTransactions := by
  unfold Obligations.RefusesExactlyTheNonTransactions
  intro s r
  cases hp : s.pending with
  | nil => simp [step_nil hp]
  | cons e rest =>
    rw [step_cons hp]
    cases e with
    | read off size =>
      rw [perform, checkAccess_eq_refused (memRead_not_refused _ _ _)]
      constructor
      · exact fun h => ⟨off, size, 0#32, rest, .inl rfl, h⟩
      · rintro ⟨_, _, _, _, he | he, h⟩ <;> cases he
        exact h
    | write off size v =>
      rw [perform, checkAccess_eq_refused (memWrite_not_refused _ _ _ _)]
      constructor
      · exact fun h => ⟨off, size, v, rest, .inr rfl, h⟩
      · rintro ⟨_, _, _, _, he | he, h⟩ <;> cases he
        exact h
    | reset => simp [perform]

/-- Settles O11: a read of a register returns its word (`readTarget_offset`), which each clause names by its value. -/
theorem registerReadsReturnTheField : Obligations.RegisterReadsReturnTheField := by
  unfold Obligations.RegisterReadsReturnTheField
  intro s off w rest hp hw
  have hread : ∀ r : Reg, off = r.offset → w = s.readReg r →
      step s = .next { s with pending := rest, readData := some w } := by
    rintro r rfl rfl
    exact step_read_eq_next hp (aligned_offset r) (readTarget_offset s r)
  rcases hw with ⟨ho, h⟩ | ⟨ho, h⟩ | ⟨ho, h⟩ | ⟨ho, h⟩ | ⟨ho, h⟩ | ⟨ho, h⟩ | ⟨ho, h⟩ | ⟨ho, h⟩ | ⟨ho, h⟩ |
    ⟨ho, h⟩ | ⟨ho, h⟩
  · exact hread .cmd ho h
  · exact hread .status ho (BitVec.eq_of_toNat_eq (h.trans s.statusWord_toNat.symm))
  · exact hread .slaveId ho (eq_setWidth_of_toNat_eq (by decide) h)
  · exact hread .serial ho h
  · exact hread .seq ho (eq_setWidth_of_toNat_eq (by decide) h)
  · exact hread .reqAddr ho (eq_setWidth_of_toNat_eq (by decide) h)
  · exact hread .reqCount ho (eq_setWidth_of_toNat_eq (by decide) h)
  · exact hread .bufLen ho (eq_setWidth_of_toNat_eq (by decide) h)
  · exact hread .result ho (BitVec.eq_of_toNat_eq (h.trans s.resultWord_toNat.symm))
  · exact hread .crcResult ho (eq_setWidth_of_toNat_eq (by decide) h)
  · exact hread .sumResult ho (eq_setWidth_of_toNat_eq (by decide) h)

/-- Settles O13: the reserved ranges name nothing (`locate_of_reservedOffset`), a register reads 0 outside its field
mask (`State.readReg_and_not_fieldMask`) and a write of it uses the mask's bits only (`memWrite_offset_congr`). -/
theorem reservedSpaceReadsZero : Obligations.ReservedSpaceReadsZero := by
  unfold Obligations.ReservedSpaceReadsZero
  refine ⟨fun s off v rest hres ha => ?_, fun s t r rest hp h => ?_, fun s r v v' rest hmask => ?_⟩
  · have hl := locate_of_reservedOffset hres
    have ha' := (aligned_iff off).mpr ha
    exact ⟨fun hp => step_read_eq_next hp ha' (by rw [hl, State.readTarget]),
      fun hp => by rw [step_write hp ha', memWrite_reserved hl]⟩
  · rw [step_readReg hp] at h
    cases h
    exact ⟨_, rfl, State.readReg_and_not_fieldMask _ r⟩
  · rw [step_write rfl (aligned_offset r), step_write rfl (aligned_offset r), memWrite_offset_congr hmask]

/-- Settles O14: offset 0x100 + 4k is word k of REQ (`locate_reqOffset`), which `State.reqWord_eq` spells out. -/
theorem reqWindowReadsTheFrame : Obligations.ReqWindowReadsTheFrame := by
  unfold Obligations.ReqWindowReadsTheFrame
  intro s k hk v rest
  have hl : locate (BitVec.ofNat 12 (0x100 + 4 * k)) = .reqWord k := locate_reqOffset hk
  have ha : aligned (BitVec.ofNat 12 (0x100 + 4 * k)) = true := aligned_reqOffset hk
  refine ⟨fun hp => step_read_eq_next hp ha ?_, fun hp => ?_⟩
  · rw [hl, State.readTarget, s.reqWord_eq hk]
  · rw [step_write hp ha, memWrite_reqWord hl]

/-- Settles O16: the step is `State.writeBufWord`, whose bytes `State.bufByte_writeBufWord_same` and
`State.bufByte_writeBufWord_of_outside` give and whose word reads back (`State.bufWord_writeBufWord`). -/
theorem bufWordWriteThenRead : Obligations.BufWordWriteThenRead := by
  unfold Obligations.BufWordWriteThenRead
  intro s k v rest hk hp
  have hl : locate (BitVec.ofNat 12 (0x200 + 4 * k)) = .bufWord k := locate_bufOffset hk
  have ha : aligned (BitVec.ofNat 12 (0x200 + 4 * k)) = true := aligned_bufOffset hk
  have hbyte := fun m hm => State.bufByte_writeBufWord_same { s with pending := rest } k v (m := m) hm
  refine ⟨State.writeBufWord { s with pending := rest } k v, ?_, fun m hm => ⟨hbyte m hm, ?_⟩, fun j hj => ?_, rfl,
    fun rest' => step_read_eq_next rfl ha ?_⟩
  · rw [step_write hp ha, memWrite_bufWord hl]
  · rw [State.written, hbyte m hm, Option.isSome_some]
  · exact State.bufByte_writeBufWord_of_outside _ v hj
  · rw [hl]
    exact State.bufWord_writeBufWord { s with pending := rest } k v

/-- Settles O17: `step_read_next` says all that a read which completes has done. -/
theorem hostReadsChangeNothing : Obligations.HostReadsChangeNothing := by
  unfold Obligations.HostReadsChangeNothing
  intro s t off size rest hp h
  obtain ⟨_, _, _, _, rfl⟩ := step_read_next hp h
  rfl

/-- Settles O51: the first read left its target as it was (`readTarget_hostSide`), so the second finds the same word. -/
theorem repeatedReadsAgree : Obligations.RepeatedReadsAgree := by
  unfold Obligations.RepeatedReadsAgree
  intro s t off size rest hp h
  obtain ⟨rfl, ha, w, hw, rfl⟩ := step_read_next hp h
  exact step_read_eq_next rfl ha ((readTarget_hostSide s (some w) _ _).trans hw)

/-- A write other than of CMD, repeated where it has been carried out, changes nothing (R52). -/
theorem memWrite_again {s t : State} {off : Offset} {v : Word} (hinv : s.BufInv) (ho : off ≠ 0x000#12)
    (h : memWrite off v s = .next t) (p : List HostEvent) :
    memWrite off v { t with pending := p } = .next { t with pending := p } := by
  cases hl : locate off with
  | reg r =>
    obtain rfl := (locate_eq_reg off r).mp hl
    have hr : r ≠ .cmd := fun hr => ho (by rw [hr]; rfl)
    rw [memWrite_offset hr] at h ⊢
    cases h
    cases r <;> rfl
  | bufWord k =>
    rw [memWrite_bufWord hl] at h ⊢
    cases h
    have hinv' := s.writeBufWord_wf k v (locate_eq_bufWord hl).1 hinv
    exact congrArg Host.Outcome.next (State.writeBufWord_eq_self (s := { s.writeBufWord k v with pending := p }) hinv'
      fun m hm => s.bufByte_writeBufWord_same k v hm)
  | reqWord k => exact memWrite_reqWord hl v _
  | reserved => exact memWrite_reserved hl v _

/-- Settles O18: the second write is of the state the first left, but for what is pending (`memWrite_again`). -/
theorem hostWritesAreIdempotent : Obligations.HostWritesAreIdempotent := by
  unfold Obligations.HostWritesAreIdempotent
  intro s t u off v rest hinv ho hp ht hu
  obtain ⟨_, hfirst⟩ := step_write_next hp ht
  have hpt : t.pending = .write off 4 v :: rest := eachStepTakesOneEvent s t _ _ hp ht
  obtain ⟨_, hsecond⟩ := step_write_next hpt hu
  rw [memWrite_again (s := { s with pending := .write off 4 v :: rest }) hinv ho hfirst] at hsecond
  cases hsecond
  rfl

/-- Settles O5: the step is the CMD write, and that runs the command its word decodes to. -/
theorem stepRunsTheDecodedCommand : Obligations.StepRunsTheDecodedCommand := by
  unfold Obligations.StepRunsTheDecodedCommand
  intro s v i rest hp hd
  rw [step_write hp rfl, memWrite_cmd, runCommand, hd]

/-- Settles O8: the check on an access refuses it before the access is looked at. -/
theorem misalignedAccessIsRefused : Obligations.MisalignedAccessIsRefused := by
  unfold Obligations.MisalignedAccessIsRefused
  intro s off v rest hoff
  have hrefused : ∀ a, checkAccess off 4 a = .refused .misalignedAccess := by simp [checkAccess, aligned, hoff]
  exact ⟨fun hp => by rw [step_cons hp, perform, hrefused], fun hp => by rw [step_cons hp, perform, hrefused]⟩

/-- Settles O12: the step is `State.writeReg` of the register at the offset. -/
theorem registerWritesStoreTheField : Obligations.RegisterWritesStoreTheField := by
  unfold Obligations.RegisterWritesStoreTheField
  intro s off v rest hp
  have hwrite : ∀ r : Reg, r ≠ .cmd → off = r.offset →
      step s = .next (State.writeReg { s with pending := rest } v r) := by
    rintro r hr rfl
    exact step_writeReg hr hp
  simp only [BitVec.ofNat_toNat]
  refine ⟨hwrite .slaveId nofun, hwrite .serial nofun, hwrite .seq nofun, hwrite .reqAddr nofun,
    hwrite .reqCount nofun, hwrite .bufLen nofun, ?_⟩
  rintro (ho | ho | ho | ho)
  · exact hwrite .status nofun ho
  · exact hwrite .result nofun ho
  · exact hwrite .crcResult nofun ho
  · exact hwrite .sumResult nofun ho

/-- Settles O15: offset 0x200 + 4k is word k of BUF (`locate_bufOffset`), read from its bytes
(`State.bufWord_eq_some`). -/
theorem bufWindowReadsWrittenWords : Obligations.BufWindowReadsWrittenWords := by
  unfold Obligations.BufWindowReadsWrittenWords
  intro s k b0 b1 b2 b3 rest hk h0 h1 h2 h3 hp
  have hl : locate (BitVec.ofNat 12 (0x200 + 4 * k)) = .bufWord k := locate_bufOffset hk
  refine step_read_eq_next hp (aligned_bufOffset hk) ?_
  rw [hl]
  exact State.bufWord_eq_some h0 h1 h2 h3

end Sys2Proof.Machine
end

section
/-! The decoder's rejections and the transactions of a listing (30_encoding.md R60, R62, R63, R66): what each answers,
said once as an equivalence. -/

namespace Sys2Proof.Machine

@[simp] theorem instr_wellFormed (i : Instr) : i.WellFormed = true := by
  cases i <;> rfl

/-- The opcode map has one error, on the opcodes it leaves out (R63). -/
theorem decodeOp_eq_error (op : Byte) (e : DecodeError) :
    decodeOp op = .error e ↔ e = .unknownOpcode ∧ (op.toNat = 0 ∨ 5 ≤ op.toNat) := by
  unfold decodeOp
  split_ifs with h1 h2 h3 h4
  · simp [h1]
  · simp [h2]
  · simp [h3]
  · simp [h4]
  · have hop : op.toNat = 0 ∨ 5 ≤ op.toNat := by bv_omega
    exact ⟨fun h => ⟨(Except.error.inj h).symm, hop⟩, fun ⟨he, _⟩ => congrArg _ he.symm⟩

/-- RSVD is looked at first, and no opcode gives its error (R60, R62). -/
theorem decodeCommand_eq_reservedBitsSet (v : Word) :
    decodeCommand v = .error .reservedBitsSet ↔ rsvdField v ≠ 0#24 := by
  unfold decodeCommand
  split_ifs with hr
  · simp [hr, decodeOp_eq_error]
  · simp [hr]

/-- OP is looked at only under a clear RSVD (R60, R63). -/
theorem decodeCommand_eq_unknownOpcode (v : Word) :
    decodeCommand v = .error .unknownOpcode ↔
      rsvdField v = 0#24 ∧ ((opField v).toNat = 0 ∨ 5 ≤ (opField v).toNat) := by
  unfold decodeCommand
  split_ifs with hr
  · simp [hr, decodeOp_eq_error]
  · simp [hr]

/-- A CMD write of a word the decoder rejects only sets the status (R62, R63). -/
theorem runCommand_of_error {v : Word} {e : DecodeError} (hd : decodeCommand v = .error e) (s : State) :
    runCommand v s = .next (s.setStatus .illegalCmd) := by
  rw [runCommand, hd, raiseStatus]

/-- The accesses a listing can carry, each with its transaction (R66). -/
def IsTransactionOf (t : Transaction) (e : HostEvent) : Prop :=
  (∃ off, e = .read off 4 ∧ t = 0#1 ++ 0#3 ++ off ++ 0#32) ∨
  (∃ off v, e = .write off 4 v ∧ t = 1#1 ++ 0#3 ++ off ++ v)

/-- An access of 4 bytes has its transaction, another access and the reset input have none (R66). -/
theorem encodeTransaction_eq_some (t : Transaction) (e : HostEvent) :
    encodeTransaction e = some t ↔ IsTransactionOf t e := by
  cases e with
  | read off size =>
    by_cases hs : size = 4 <;> simp [encodeTransaction, IsTransactionOf, hs, eq_comm]
  | write off size v =>
    by_cases hs : size = 4 <;> simp [encodeTransaction, IsTransactionOf, hs, eq_comm]
  | reset => simp [encodeTransaction, IsTransactionOf]

/-- A transaction decodes by its four fields (`transaction_fields`), so to the access it is built from (R66). -/
theorem decodeTransaction_eq_some (t : Transaction) (e : HostEvent) :
    decodeTransaction t = some e ↔ IsTransactionOf t e := by
  constructor
  · have hfields := transaction_fields t
    unfold decodeTransaction
    split_ifs with hz hw hd
    · rintro ⟨⟩
      rw [hw, hz] at hfields
      exact .inr ⟨_, _, rfl, hfields⟩
    · rintro ⟨⟩
      have hw0 : t.extractLsb' 47 1 = 0#1 := (BitVec.eq_zero_or_eq_one _).resolve_right hw
      rw [hw0, hz, hd] at hfields
      exact .inl ⟨_, rfl, hfields⟩
    all_goals nofun
  · rintro (⟨off, rfl, rfl⟩ | ⟨off, v, rfl, rfl⟩)
    · simp only [decodeTransaction, transaction_z, transaction_w, transaction_data, transaction_off]
      rfl
    · simp only [decodeTransaction, transaction_z, transaction_w, transaction_data, transaction_off, if_true]

end Sys2Proof.Machine
end

section
/-! Carrying out `loadbuf` (30_encoding.md R67): a run of several steps, the word `loadbuf` writes at one place of BUF,
and what all its words leave in BUF. -/

namespace Sys2Proof.Machine

/-! ### Runs -/

theorem run_succ {M : Host.Core} {s t : M.State} (h : M.step s = .next t) (n : Nat) :
    M.run (n + 1) s = M.run n t := by
  rw [Host.Core.run, h]

/-- A run goes on from where a run of fewer steps has come. -/
theorem run_add {M : Host.Core} {m : Nat} {s t : M.State} (h : M.run m s = .next t) (n : Nat) :
    M.run (m + n) s = M.run n t := by
  induction m generalizing s with
  | zero =>
    cases h
    rw [Nat.zero_add]
  | succ m ih =>
    rw [Host.Core.run] at h
    split at h
    · next u hs => rw [Nat.add_right_comm, run_succ hs, ih h]
    · cases h
    · cases h

/-! ### One word of `loadbuf` -/

/-- The first word `loadbuf` writes of these bytes, missing ones taken as 0x00 (R67). -/
def firstWord (bytes : List Byte) : Word :=
  packWord (byteAt bytes 0) (byteAt bytes 1) (byteAt bytes 2) (byteAt bytes 3)

/-- `loadbuf` writes four bytes at a time, the last word padded (R67). -/
theorem loadbufWords_of_ne_nil (k : Nat) {bytes : List Byte} (h : bytes ≠ []) :
    loadbufWords k bytes =
      .write (bufOffset k) 4 (firstWord bytes) :: loadbufWords (k + 1) (bytes.drop 4) := by
  match bytes, h with
  | [_], _ => rfl
  | [_, _], _ => rfl
  | [_, _, _], _ => rfl
  | _ :: _ :: _ :: _ :: _, _ => rfl

theorem byteOf_firstWord (bytes : List Byte) {j : Nat} (hj : j < 4) :
    byteOf (firstWord bytes) j = byteAt bytes j := by
  obtain ⟨h0, h1, h2, h3⟩ :=
    byteOf_packWord (byteAt bytes 0) (byteAt bytes 1) (byteAt bytes 2) (byteAt bytes 3)
  match j, hj with
  | 0, _ => exact h0
  | 1, _ => exact h1
  | 2, _ => exact h2
  | 3, _ => exact h3

theorem some_byteAt {bytes : List Byte} {j : Nat} (hj : j < bytes.length) : some (byteAt bytes j) = bytes[j]? := by
  simp [byteAt, hj]

/-! ### All its words -/

/-- From BUF word k on the bytes stand in `t`'s BUF, and outside the words that takes BUF is as in `s`. -/
def LoadedFrom (k : Nat) (bytes : List Byte) (s t : State) : Prop :=
  (∀ j, j < bytes.length → t.bufByte (4 * k + j) = bytes[j]?) ∧
  (∀ j, j < 4 * k ∨ 4 * (k + (bytes.length + 3) / 4) ≤ j → t.bufByte j = s.bufByte j)

/-- Writing the first word and then loading the other bytes from the next word on loads them all. -/
theorem LoadedFrom.of_writeBufWord {k : Nat} {bytes : List Byte} {s t : State} (hne : bytes ≠ [])
    (h : LoadedFrom (k + 1) (bytes.drop 4) (s.writeBufWord k (firstWord bytes)) t) : LoadedFrom k bytes s t := by
  obtain ⟨hbytes, hframe⟩ := h
  have hpos : 0 < bytes.length := List.length_pos_iff.mpr hne
  rw [List.length_drop] at hbytes hframe
  constructor
  · intro j hj
    by_cases hj4 : j < 4
    · rw [hframe _ (by omega), State.bufByte_writeBufWord_same _ _ _ hj4, byteOf_firstWord _ hj4, some_byteAt hj]
    · have hrest := hbytes (j - 4) (by omega)
      rwa [List.getElem?_drop, show 4 * (k + 1) + (j - 4) = 4 * k + j by omega, show 4 + (j - 4) = j by omega] at hrest
  · intro j hj
    rw [hframe j (by omega), State.bufByte_writeBufWord_of_outside _ _ (by omega)]

theorem step_writeBufOffset {s : State} {k : Nat} {v : Word} {rest : List HostEvent} (hk : k < 75)
    (hp : s.pending = .write (bufOffset k) 4 v :: rest) :
    step s = .next (State.writeBufWord { s with pending := rest } k v) := by
  rw [step_write hp (aligned_bufOffset hk), memWrite_bufWord (locate_bufOffset hk)]

/-- The word writes of `loadbuf` load the bytes and change nothing but BUF (R48, R67). -/
theorem run_loadbufWords (s : State) (k : Nat) (bytes : List Byte) (rest : List HostEvent)
    (hfit : 4 * k + bytes.length ≤ 300) (hp : s.pending = loadbufWords k bytes ++ rest) :
    ∃ t, core.run (loadbufWords k bytes).length s = .next t ∧ LoadedFrom k bytes s t ∧
      t = { s with buf := t.buf, pending := rest } := by
  by_cases hne : bytes = []
  · subst hne
    rw [loadbufWords, List.nil_append] at hp
    subst hp
    exact ⟨s, rfl, ⟨nofun, fun _ _ => rfl⟩, rfl⟩
  · have hpos : 0 < bytes.length := List.length_pos_iff.mpr hne
    rw [loadbufWords_of_ne_nil k hne] at hp ⊢
    have hstep := step_writeBufOffset (by omega) hp
    obtain ⟨t, hrun, hload, ht⟩ := run_loadbufWords
      (State.writeBufWord { s with pending := loadbufWords (k + 1) (bytes.drop 4) ++ rest } k (firstWord bytes))
      (k + 1) (bytes.drop 4) rest (by rw [List.length_drop]; omega) (State.writeBufWord_pending _ _ _)
    exact ⟨t, (run_succ (M := core) hstep _).trans hrun, .of_writeBufWord (s := s) hne hload, ht⟩
termination_by bytes.length
decreasing_by
  rw [List.length_drop]
  omega

end Sys2Proof.Machine
end

section
/-! Proofs of the statements on the encodings (30_encoding.md). -/

namespace Sys2Proof.Machine

/-- Settles O2: every command is well formed, so `decodeCommand_eq_ok` says it. -/
theorem decodeEncodeAgree : Obligations.DecodeEncodeAgree := by
  unfold Obligations.DecodeEncodeAgree
  intro v i
  rw [decodeCommand_eq_ok, and_iff_right (instr_wellFormed i)]

/-- Settles O4: encoding and decoding are the same relation, `IsTransactionOf`. -/
theorem transactionsAgree : Obligations.TransactionsAgree := by
  unfold Obligations.TransactionsAgree
  intro t e
  rw [encodeTransaction_eq_some, decodeTransaction_eq_some]

/-- Settles O3, one equivalence for each name. -/
theorem decoderRejectsByName : Obligations.DecoderRejectsByName := by
  unfold Obligations.DecoderRejectsByName
  intro v
  exact ⟨decodeCommand_eq_reservedBitsSet v, decodeCommand_eq_unknownOpcode v⟩

/-- Settles O21: `exec_next_cases` lists what a command can have done; each case leaves the named fields alone, or is
of the one command that may write them. -/
theorem commandsWriteOnlyTheirOutputs : Obligations.CommandsWriteOnlyTheirOutputs := by
  unfold Obligations.CommandsWriteOnlyTheirOutputs
  intro i s t h
  have hbuf : ∀ j, t.bufByte j = s.bufByte j ∧ t.written j = s.written j := by
    simp [State.written, State.bufByte, exec_buf h]
  rcases exec_next_cases h with
    ⟨_, _, _, rfl⟩ | ⟨_, rfl, _, rfl⟩ | ⟨_, rfl, _, rfl⟩ | ⟨rfl, _, rfl⟩ | ⟨_, _, _, rfl, _, _, rfl⟩ <;>
    simp [hbuf]

/-- Settles O24: such a word the decoder rejects, for its RSVD bits or, those clear, for its OP. -/
theorem illegalWordsOnlySetTheStatus : Obligations.IllegalWordsOnlySetTheStatus := by
  unfold Obligations.IllegalWordsOnlySetTheStatus
  intro s v rest hp hillegal
  have hrejected : ∃ e, decodeCommand v = .error e := by
    by_cases hr : rsvdField v = 0#24
    · exact ⟨_, (decodeCommand_eq_unknownOpcode v).mpr ⟨hr, hillegal.resolve_left (absurd hr)⟩⟩
    · exact ⟨_, (decodeCommand_eq_reservedBitsSet v).mpr hr⟩
  obtain ⟨e, hd⟩ := hrejected
  rw [step_write hp rfl, memWrite_cmd, runCommand_of_error hd]
  rfl

/-- Settles O50: the word writes load the bytes (`run_loadbufWords`), the last access writes their number to
BUF_LEN. -/
theorem loadbufFillsTheBuffer : Obligations.LoadbufFillsTheBuffer := by
  unfold Obligations.LoadbufFillsTheBuffer
  intro s bytes rest hlen hp
  rw [loadbuf, List.append_assoc] at hp
  obtain ⟨t, hrun, ⟨hbytes, hframe⟩, ht⟩ := run_loadbufWords s 0 bytes _ (by omega) hp
  have hpt : t.pending = .write Reg.bufLen.offset 4 (BitVec.ofNat 32 bytes.length) :: rest := by rw [ht]; rfl
  have hlast := step_writeReg (r := .bufLen) nofun hpt
  have hbufLen : ((BitVec.ofNat 32 bytes.length).setWidth 9).toNat = bytes.length := by
    simp only [BitVec.toNat_setWidth, BitVec.toNat_ofNat]
    omega
  simp only [Nat.mul_zero, Nat.zero_add] at hbytes hframe
  refine ⟨State.writeReg { t with pending := rest } (BitVec.ofNat 32 bytes.length) .bufLen, ?_,
    ⟨hbufLen.symm, hbytes⟩, hbufLen, fun j hj => hframe j (.inr hj), ?_⟩
  · rw [loadbuf, List.length_append]
    exact (run_add (M := core) hrun 1).trans (run_succ (M := core) hlast 0)
  · rw [ht]
    rfl

/-- Settles O1: the four commands' words are the encoder's, the other three are rejected by name. -/
theorem commandWordsReadFromTheMap : Obligations.CommandWordsReadFromTheMap :=
  ⟨(decodeCommand_eq_ok _ .crc16).mpr rfl, (decodeCommand_eq_ok _ .v5sum).mpr rfl,
    (decodeCommand_eq_ok _ .encode).mpr rfl, (decodeCommand_eq_ok _ .decode).mpr rfl,
    (decodeCommand_eq_unknownOpcode _).mpr ⟨rfl, .inl rfl⟩,
    (decodeCommand_eq_unknownOpcode _).mpr ⟨rfl, .inr le_rfl⟩,
    (decodeCommand_eq_reservedBitsSet _).mpr (by decide)⟩

end Sys2Proof.Machine
end

section
/-! The CRC step on the CRC's own bytes, the V5 checksum as a sum over indices, and what a command of the buffer
operand answers, and answers again on the state it leaves. -/

namespace Sys2Proof.Machine

/-- A CRC that takes in its own low byte shifts its high byte down (R68): the byte cancels, so every bit shifted out
is 0. -/
theorem crcByte_low (c : Half) : crcByte c (c.extractLsb' 0 8) = c >>> 8 := by
  have hlow : ∀ i, i < 8 → (c ^^^ (c.extractLsb' 0 8).setWidth 16).getLsbD i = false := by
    intro i hi
    simp [hi, show i < 16 by omega]
  rw [crcByte, crcShifts_low 8 _ hlow]
  apply BitVec.eq_of_getLsbD_eq
  intro i hi
  simp

/-- A CRC that takes in its own low byte and then its own high byte becomes 0 (R70). -/
theorem crcByte_own_bytes (c : Half) : crcByte (crcByte c (c.extractLsb' 0 8)) (c.extractLsb' 8 8) = 0x0000#16 := by
  have hhigh : c.extractLsb' 8 8 = (c >>> 8).extractLsb' 0 8 := by
    apply BitVec.eq_of_getLsbD_eq
    intro i hi
    simp [hi]
  rw [crcByte_low, hhigh, crcByte_low, ← BitVec.shiftRight_add]
  exact BitVec.ushiftRight_eq_zero le_rfl

/-- The V5 checksum by index: the n-3 bytes from index 1 on (R72). -/
theorem v5Checksum_eq_sum (bytes : List Byte) :
    v5Checksum bytes =
      BitVec.ofNat 8 (∑ j ∈ Finset.range (bytes.length - 3), (bytes.getD (j + 1) 0#8).toNat) := by
  have hbody : (bytes.drop 1).take (bytes.length - 3) =
      (List.range (bytes.length - 3)).map fun j => bytes.getD (j + 1) 0#8 := by
    apply List.ext_getElem
    · simp only [List.length_take, List.length_drop, List.length_map, List.length_range]
      omega
    · intro j _ hj
      rw [List.length_map, List.length_range] at hj
      simp [show j + 1 < bytes.length by omega]
  rw [v5Checksum, foldl_add_eq_sum, hbody, List.map_map, BitVec.zero_add]
  rfl

/-- The buffer operand of a command with no least length answers by LEN_ERROR, the UnwrittenRead check or the command's
own meaning (R71, R73). -/
theorem withBuffer_anyLength (s : State) (k : List Byte → State) :
    (300 < s.bufLen.toNat → withBuffer 0 s k = .next (s.setStatus .lenError)) ∧
    (s.bufLen.toNat ≤ 300 → s.Unwritten → withBuffer 0 s k = .fault .unwrittenRead) ∧
    (∀ bytes, s.bufLen.toNat ≤ 300 → s.Holds bytes → withBuffer 0 s k = .next (k bytes)) :=
  ⟨withBuffer_tooLong 0 s k, fun hl => withBuffer_unwritten 0 s k hl (Nat.zero_le _),
    fun bytes hl => withBuffer_holds 0 s k bytes hl (Nat.zero_le _)⟩

theorem State.Holds.of_buf_eq {s t : State} {bytes : List Byte} (h : s.Holds bytes) (hlen : t.bufLen = s.bufLen)
    (hbuf : t.buf = s.buf) : t.Holds bytes := by
  rw [State.Holds, hlen]
  simpa [State.Holds, State.bufByte, hbuf] using h

/-- A command of the buffer operand whose outputs are not among its inputs leaves, run again, what it left (R71). -/
theorem withBuffer_again {minLen : Nat} {s t : State} {k : State → List Byte → State}
    (hlen : ∀ bytes, (k s bytes).bufLen = s.bufLen) (hbuf : ∀ bytes, (k s bytes).buf = s.buf)
    (hk : ∀ bytes, k (k s bytes) bytes = k s bytes) (h : withBuffer minLen s (k s) = .next t) :
    withBuffer minLen t (k t) = .next t := by
  rcases withBuffer_cases minLen s (k s) with ⟨hl, e⟩ | ⟨hl, hm, e⟩ | ⟨_, _, _, e⟩ | ⟨bytes, hl, hm, hb, e⟩ <;>
    rw [e] at h <;> cases h
  · exact withBuffer_tooLong minLen (s.setStatus .lenError) _ hl
  · exact withBuffer_tooShort minLen (s.setStatus .malformedFrame) _ hl hm
  · rw [← hlen bytes] at hl hm
    rw [withBuffer_holds minLen _ _ bytes hl hm (hb.of_buf_eq (hlen bytes) (hbuf bytes)), hk]

/-! What DECODE's end leaves alone, and that ending twice with one scan's result is ending once (R92, R94). -/

@[simp] theorem State.finishDecode_slaveId (s : State) (distinct : Bool) (r : ScanResult) :
    (s.finishDecode distinct r).slaveId = s.slaveId := by
  cases r <;> rfl

@[simp] theorem State.finishDecode_bufLen (s : State) (distinct : Bool) (r : ScanResult) :
    (s.finishDecode distinct r).bufLen = s.bufLen := by
  cases r <;> rfl

@[simp] theorem State.finishDecode_buf (s : State) (distinct : Bool) (r : ScanResult) :
    (s.finishDecode distinct r).buf = s.buf := by
  cases r <;> rfl

@[simp] theorem State.finishDecode_finishDecode (s : State) (distinct : Bool) (r : ScanResult) :
    (s.finishDecode distinct r).finishDecode distinct r = s.finishDecode distinct r := by
  cases r <;> rfl

end Sys2Proof.Machine
end

section
/-! Proofs of the statements on the checksums (40_checksum.md). -/

namespace Sys2Proof.Machine

/-- Settles O27: the fold over the appended bytes is `crcByte_own_bytes` at the sequence's CRC. -/
theorem crcResidueIsZero : Obligations.CrcResidueIsZero := by
  unfold Obligations.CrcResidueIsZero
  intro bytes
  rw [crc16Modbus, List.foldl_append]
  exact crcByte_own_bytes (crc16Modbus bytes)

/-- Settles O28: `v5Checksum_eq_sum` is the sum; its range is empty for n at most 3, and has the indices 1 to 33 of a
frame, whose byte 34 is its checksum (`frame_selfValidates`). -/
theorem checksumIsTheSumOfTheBody : Obligations.ChecksumIsTheSumOfTheBody := by
  unfold Obligations.ChecksumIsTheSumOfTheBody
  refine ⟨fun bytes => ?_, fun bytes hn => ?_, fun sid seq addr cnt ser => ?_⟩
  · rw [v5Checksum_eq_sum, Finset.range_eq_Ico, Finset.sum_Ico_add' (fun j => (bytes.getD j 0#8).toNat)]
    rfl
  · rw [v5Checksum_eq_sum, Nat.sub_eq_zero_of_le hn, Finset.sum_range_zero]
  · obtain ⟨_, hsum⟩ := frame_selfValidates sid addr cnt ser seq
    rw [← hsum, v5Checksum_eq_sum, Vector.length_toList,
      ← Fin.sum_univ_eq_sum_range (fun j => ((frame sid addr cnt ser seq).toList.getD (j + 1) 0#8).toNat)]
    refine congrArg (BitVec.ofNat 8) (Fintype.sum_congr _ _ fun j => ?_)
    simp [show j.val + 1 < 36 by omega]

/-- Settles O29: CRC16 is the buffer operand with no least length, which `withBuffer_anyLength` describes. -/
theorem crc16Command : Obligations.Crc16Command := by
  unfold Obligations.Crc16Command
  intro s
  exact withBuffer_anyLength s _

/-- Settles O30, as O29: V5SUM takes the same operand. -/
theorem v5sumCommand : Obligations.V5sumCommand := by
  unfold Obligations.V5sumCommand
  intro s
  exact withBuffer_anyLength s _

/-- Settles O41: no output of the three commands is an input of theirs (`withBuffer_again`). -/
theorem repeatedCommandsAgree : Obligations.RepeatedCommandsAgree := by
  unfold Obligations.RepeatedCommandsAgree
  intro i s t hi h
  cases i with
  | crc16 =>
    exact withBuffer_again (k := fun s bytes => { s with crcResult := crc16Modbus bytes, statusCode := .ok })
      (fun _ => rfl) (fun _ => rfl) (fun _ => rfl) h
  | v5sum =>
    exact withBuffer_again (k := fun s bytes => { s with sumResult := v5Checksum bytes, statusCode := .ok })
      (fun _ => rfl) (fun _ => rfl) (fun _ => rfl) h
  | encode => exact absurd rfl hi
  | decode =>
    exact withBuffer_again
      (k := fun s bytes => s.finishDecode Config.crcMismatchDistinct (scanAll bytes s.slaveId))
      (by simp) (by simp) (by simp) h

/-- Settles O26: the four values are computed, at most nine bytes each. -/
theorem printedCrcValues : Obligations.PrintedCrcValues := by
  unfold Obligations.PrintedCrcValues
  decide +kernel

end Sys2Proof.Machine
end

section
/-! ENCODE with SERIAL_VALID = 1, what the events of the host can do to SEQ, and how the frame depends on SEQ
(41_encode.md R77, R80, R81). -/

namespace Sys2Proof.Machine

theorem execEncode_set {s : State} (hv : s.serialValid = true) :
    exec .encode s = .next { s with
      req := frame s.slaveId s.reqAddr s.reqCount s.serial s.seq
      seq := s.seq + 1#8
      statusCode := .ok } := by
  simp [exec, execEncode, hv]

/-! ### SEQ -/

/-- A command leaves SEQ alone, or is an ENCODE with SERIAL_VALID = 1 (R80). -/
theorem exec_seq {i : Instr} {s t : State} (h : exec i s = .next t) :
    t.seq = s.seq ∨ (i = .encode ∧ s.serialValid = true) := by
  rcases exec_next_cases h with
    ⟨_, _, _, rfl⟩ | ⟨_, _, _, rfl⟩ | ⟨_, _, _, rfl⟩ | ⟨hi, hv, _⟩ | ⟨_, _, _, _, _, _, rfl⟩
  · exact .inl rfl
  · exact .inl rfl
  · exact .inl rfl
  · exact .inr ⟨hi, hv⟩
  · exact .inl rfl

/-- A CMD write leaves SEQ alone, or is an ENCODE's with SERIAL_VALID = 1 (R61, R80). -/
theorem runCommand_seq {v : Word} {s t : State} (h : runCommand v s = .next t) :
    t.seq = s.seq ∨ (v = encodeCommand .encode ∧ s.serialValid = true) := by
  rcases runCommand_next_cases h with ⟨i, hd, hx⟩ | rfl
  · refine (exec_seq hx).imp_right fun ⟨hi, hv⟩ => ⟨?_, hv⟩
    rw [(decodeCommand_eq_ok v i).mp hd, hi]
  · exact .inl rfl

/-- A host write of a register other than SEQ leaves SEQ alone (R80). -/
theorem State.writeReg_seq_of_ne (s : State) (v : Word) {r : Reg} (hr : r ≠ .seq) : (s.writeReg v r).seq = s.seq := by
  cases r with
  | seq => exact absurd rfl hr
  | _ => rfl

/-- Only reset, a write of SEQ and an ENCODE with SERIAL_VALID = 1 touch SEQ (R80). -/
theorem step_seq {s t : State} {e : HostEvent} {rest : List HostEvent} (hp : s.pending = e :: rest)
    (h : step s = .next t) (hreset : e ≠ .reset) (hw : ∀ v, e ≠ .write 0x010#12 4 v)
    (henc : ¬ (e = .write 0x000#12 4 (encodeCommand .encode) ∧ s.serialValid = true)) : t.seq = s.seq := by
  rcases step_cases hp h with
    ⟨_, _, _, rfl⟩ | ⟨v, rfl, hc⟩ | ⟨_, _, _, _, _, _, rfl⟩ | ⟨r, v, _, rfl, rfl⟩ | ⟨_, _, _, _, _, rfl⟩ | ⟨rfl, _⟩
  · rfl
  · refine (runCommand_seq hc).resolve_right ?_
    rintro ⟨rfl, hv⟩
    exact henc ⟨rfl, hv⟩
  · rfl
  · refine (State.writeReg_seq_of_ne _ v ?_ :)
    rintro rfl
    exact hw v rfl
  · rfl
  · exact absurd rfl hreset

/-! ### How the frame depends on SEQ -/

/-- The frame for another SEQ is the frame with its bytes 5 and 34 replaced (R75, R76). -/
theorem frame_eq_set (sid : Byte) (addr cnt : Half) (ser : Word) (seq seq' : Byte) :
    frame sid addr cnt ser seq' =
      ((frame sid addr cnt ser seq).set 5 seq').set 34 (frame sid addr cnt ser seq')[34] := rfl

/-- Frames of one request agree outside bytes 5 and 34 (R75, R76). -/
theorem frame_getElem_of_ne (sid : Byte) (addr cnt : Half) (ser : Word) (seq seq' : Byte) {j : Fin 36}
    (h5 : j.val ≠ 5) (h34 : j.val ≠ 34) : (frame sid addr cnt ser seq')[j] = (frame sid addr cnt ser seq)[j] := by
  rw [frame_eq_set sid addr cnt ser seq seq', Fin.getElem_fin, Vector.getElem_set_ne _ _ h34.symm,
    Vector.getElem_set_ne _ _ h5.symm, Fin.getElem_fin]

/-- A byte that grows by `b` makes the sum of a sequence grow by `b` (R74). -/
theorem foldl_add_append_cons (l m : List Byte) (a b c : Byte) :
    (l ++ (a + b) :: m).foldl (· + ·) c = (l ++ a :: m).foldl (· + ·) c + b := by
  simp only [List.foldl_append, List.foldl_cons, foldl_add_eq_sum m]
  ac_rfl

/-- SEQ one more makes the frame's checksum one more: SEQ is the fifth of the bytes it adds up (R80, R81). -/
theorem frame_checksum_succ (sid : Byte) (addr cnt : Half) (ser : Word) (seq : Byte) :
    (frame sid addr cnt ser (seq + 1#8))[34] = (frame sid addr cnt ser seq)[34] + 1#8 :=
  foldl_add_append_cons
    [byteOf Config.v5LengthField 0, byteOf Config.v5LengthField 1, Config.v5Control0, Config.v5Control1] _
    seq 1#8 0x00#8

end Sys2Proof.Machine
end

section
/-! Proofs of the statements on ENCODE (41_encode.md). -/

namespace Sys2Proof.Machine

/-- Settles O20: `execEncode_set` is the completing ENCODE, `step_seq` says which events leave SEQ alone. -/
theorem sequenceCounterRule : Obligations.SequenceCounterRule := by
  unfold Obligations.SequenceCounterRule
  refine ⟨rfl, fun s hv => ⟨_, execEncode_set hv, rfl, BitVec.toNat_add _ _⟩,
    fun s t e rest hp h => ⟨?_, fun v => ?_, step_seq hp h⟩⟩
  · rintro rfl
    rw [step_cons hp] at h
    cases h
    rfl
  · rintro rfl
    rw [step_writeReg (r := .seq) nofun hp] at h
    cases h
    exact BitVec.toNat_setWidth 8 v

/-- Settles O32: the fixed bytes are `frame_hasFixedBytes`, the two checks `frame_selfValidates`, the sum O28's; the
other bytes are the inputs taken apart. -/
theorem frameLayout_holds : Obligations.FrameLayout := by
  unfold Obligations.FrameLayout
  intro s hv
  obtain ⟨h0, h1, h2, h3, h4, h6, h11, hzero, h27, h35⟩ :=
    frame_hasFixedBytes s.slaveId s.reqAddr s.reqCount s.serial s.seq
  obtain ⟨hcrc, hchecksum⟩ := frame_selfValidates s.slaveId s.reqAddr s.reqCount s.serial s.seq
  obtain ⟨_, _, hsum⟩ := checksumIsTheSumOfTheBody
  exact ⟨_, execEncode_set hv, rfl, h0, h1, h2, h3, h4, rfl, h6, packWord_byteOf s.serial, h11, hzero, rfl, h27,
    half_bytes s.reqAddr, half_bytes s.reqCount, hcrc.symm, hchecksum.symm, hsum .., h35⟩

/-- Settles O33: ENCODE leaves its other inputs alone, so the two frames differ in SEQ, which `frame_getElem_of_ne`
and `frame_checksum_succ` follow into the bytes. -/
theorem consecutiveFramesDifferInTwoBytes : Obligations.ConsecutiveFramesDifferInTwoBytes := by
  unfold Obligations.ConsecutiveFramesDifferInTwoBytes
  intro s hv
  exact ⟨_, _, execEncode_set hv, execEncode_set hv,
    fun _ h5 h34 => frame_getElem_of_ne (h5 := h5) (h34 := h34) .., rfl, frame_checksum_succ ..⟩

/-- Settles O34: an ENCODE that ends in OK has left a frame in REQ, and every frame validates itself. -/
theorem encodedFrameSelfValidates : Obligations.EncodedFrameSelfValidates := by
  unfold Obligations.EncodedFrameSelfValidates
  intro s t h hok
  rcases execEncode_cases s with ⟨_, e⟩ | ⟨_, e⟩ <;> rw [e] at h <;> cases h
  · cases hok
  · exact frame_selfValidates ..

/-- Settles O31: `execEncode_unset` and `execEncode_set` are its two cases. -/
theorem encodeCommand_holds : Obligations.EncodeCommand := by
  unfold Obligations.EncodeCommand
  intro s
  refine ⟨execEncode_unset, fun hv => ?_⟩
  have hseq : BitVec.ofNat 8 (s.seq.toNat + 1) = s.seq + 1#8 := by
    rw [BitVec.ofNat_add, BitVec.ofNat_toNat, BitVec.setWidth_eq]
  rw [execEncode_set hv, hseq]

end Sys2Proof.Machine
end

section
/-! DECODE (42_decode.md R86 to R95): its answer on written bytes, where its scan ends in terms of the replies that
stand in them, and which of them it reads. -/

namespace Sys2Proof.Machine

/-! ### The answer -/

theorem execDecodeWith_holds {s : State} {bytes : List Byte} (distinct : Bool) (hb : s.Holds bytes)
    (hmin : 15 ≤ bytes.length) (hmax : bytes.length ≤ 300) :
    execDecodeWith distinct s = .next (s.finishDecode distinct (scanAll bytes s.slaveId)) := by
  have hlen : bytes.length = s.bufLen.toNat := hb.left
  exact withBuffer_holds 15 s _ bytes (by omega) (by omega) hb

theorem State.finishDecode_statusCode (s : State) (distinct : Bool) (r : ScanResult) :
    (s.finishDecode distinct r).statusCode = .ok ∨ (s.finishDecode distinct r).statusCode = .notFound ∨
      (s.finishDecode distinct r).statusCode = .checksumMismatch := by
  rcases s.finishDecode_cases distinct r with ⟨_, _, _, e⟩ | ⟨_, _, e⟩ | ⟨_, _, _, e⟩ <;> rw [e]
  · exact .inl rfl
  · exact .inr (.inr rfl)
  · exact .inr (.inl rfl)

/-- What a scan's result writes does not depend on the state it is written to (R92, R94). -/
theorem State.finishDecode_outcome_congr (s s' : State) (distinct : Bool) (r : ScanResult) :
    (s'.finishDecode distinct r).statusCode = (s.finishDecode distinct r).statusCode ∧
    ((s.finishDecode distinct r).statusCode = .ok →
      (s'.finishDecode distinct r).resultValue = (s.finishDecode distinct r).resultValue ∧
      (s'.finishDecode distinct r).resultSigned = (s.finishDecode distinct r).resultSigned) := by
  cases r with
  | found hi lo => exact ⟨rfl, fun _ => ⟨rfl, rfl⟩⟩
  | exhausted crcFail =>
    refine ⟨rfl, ?_⟩
    rw [State.finishDecode, State.setStatus_statusCode]
    split <;> nofun

/-- The hint is the top bit of the first data byte (R92). -/
theorem signHint_eq (hi : Byte) : signHint hi = decide (128 ≤ hi.toNat) := by
  rw [signHint, ← BitVec.msb_eq_decide (w := 8), BitVec.msb_eq_getLsbD_last]

/-! ### Where the scan ends -/

/-- Every offset of the scan is one the scan's loop counts (R88). -/
theorem InScan.exists_add {n i : Nat} (hi : InScan n i) (hmin : 15 ≤ n) : ∃ k, i = 5 + k ∧ k < scanCount n := by
  obtain ⟨k, rfl⟩ := Nat.exists_eq_add_of_le hi.left
  exact ⟨k, rfl, (inScan_iff hmin k).mp hi⟩

/-- Where no reply stands, the scan goes on (R91). -/
theorem verdictAt_ne_reply {bytes : List Byte} {sid : Byte} {k : Nat} (hmin : 15 ≤ bytes.length)
    (hk : k < scanCount bytes.length)
    (hnone : InScan bytes.length (5 + k) → ∀ h l, ¬ ReplyAt bytes sid (5 + k) h l) (h l : Byte) :
    verdictAt bytes sid (5 + k) ≠ .reply h l := by
  have hin := (inScan_iff hmin k).mpr hk
  exact (verdictAt_reply bytes sid (5 + k) h l hin.right).not.mpr (hnone hin h l)

/-- The highest reply of the scan is the one it finds (R92). -/
theorem scanAll_eq_found {bytes : List Byte} {sid : Byte} {i : Nat} {hi lo : Byte} (hmin : 15 ≤ bytes.length)
    (hin : InScan bytes.length i) (hreply : ReplyAt bytes sid i hi lo)
    (habove : ∀ j, i < j → InScan bytes.length j → ∀ h l, ¬ ReplyAt bytes sid j h l) :
    scanAll bytes sid = .found hi lo := by
  obtain ⟨k, rfl, hk⟩ := hin.exists_add hmin
  refine (scan_found bytes sid hi lo _ _).mpr ⟨k, hk, (verdictAt_reply _ _ _ _ _ hin.right).mpr hreply, ?_⟩
  exact fun j hkj hj => verdictAt_ne_reply hmin hj (habove (5 + j) (by omega))

/-- With no reply the scan is exhausted, and tells whether a candidate failed its CRC (R94). -/
theorem scanAll_exhausted {bytes : List Byte} {sid : Byte} (hmin : 15 ≤ bytes.length)
    (hnone : ∀ i, InScan bytes.length i → ∀ hi lo, ¬ ReplyAt bytes sid i hi lo) :
    ∃ crcFail, scanAll bytes sid = .exhausted crcFail ∧
      (crcFail = true ↔ ∃ i, InScan bytes.length i ∧ FailedCrcAt bytes sid i) := by
  classical
  refine ⟨_, (scan_exhausted bytes sid _ _ _).mpr
    ⟨fun j hj => verdictAt_ne_reply hmin hj (hnone (5 + j)), decide_eq_true_iff.trans ⟨?_, ?_⟩⟩, decide_eq_true_iff⟩
  · rintro ⟨i, hin, hf⟩
    obtain ⟨k, rfl, hk⟩ := hin.exists_add hmin
    exact .inr ⟨k, hk, (verdictAt_crcFail _ _ _ hin.right).mpr hf⟩
  · rintro (⟨⟨⟩⟩ | ⟨k, hk, hv⟩)
    have hin := (inScan_iff hmin k).mpr hk
    exact ⟨5 + k, hin, (verdictAt_crcFail _ _ _ hin.right).mp hv⟩

/-- A candidate that fails its CRC is no reply: the scan has one verdict on an offset (R90, R91). -/
theorem FailedCrcAt.not_replyAt {bytes : List Byte} {sid : Byte} {i : Nat} (hf : FailedCrcAt bytes sid i)
    (hin : InScan bytes.length i) (hi lo : Byte) : ¬ ReplyAt bytes sid i hi lo := by
  intro hr
  have hreply := (verdictAt_reply bytes sid i hi lo hin.right).mpr hr
  rw [(verdictAt_crcFail bytes sid i hin.right).mpr hf] at hreply
  cases hreply

/-! ### Which bytes the scan reads -/

/-- The body of the loop at offset i reads the bytes i to i+6 (R89, R90). -/
theorem verdictAt_congr {bytes bytes' : List Byte} {i : Nat} (sid : Byte) (hlen : bytes'.length = bytes.length)
    (hi : i + 8 ≤ bytes.length) (hagree : ∀ m, m ≤ 6 → byteAt bytes' (i + m) = byteAt bytes (i + m)) :
    verdictAt bytes' sid i = verdictAt bytes sid i := by
  have hspan := replySpan_eq (bytes := bytes) (i := i) (by omega)
  have hspan' := replySpan_eq (bytes := bytes') (i := i) (by omega)
  have h0 : byteAt bytes' i = byteAt bytes i := hagree 0 (by omega)
  simp only [verdictAt, isCandidate, countAccepted, crcMatches, hspan, hspan', hlen, h0, hagree 1 (by omega),
    hagree 2 (by omega), hagree 3 (by omega), hagree 4 (by omega), hagree 5 (by omega), hagree 6 le_rfl]

theorem scan_congr {bytes bytes' : List Byte} {sid : Byte} {n : Nat}
    (h : ∀ k, k < n → verdictAt bytes' sid (5 + k) = verdictAt bytes sid (5 + k)) (crcFail : Bool) :
    scan bytes' sid n crcFail = scan bytes sid n crcFail := by
  induction n generalizing crcFail with
  | zero => rfl
  | succ n ih =>
    have ih' := ih fun k hk => h k (by omega)
    simp only [scan, Config.decScanLo, h n (by omega), ih']

/-- The whole scan reads the bytes 5 to n-2 (R95). -/
theorem scanAll_congr {bytes bytes' : List Byte} (sid : Byte) (hlen : bytes'.length = bytes.length)
    (hmin : 15 ≤ bytes.length) (hagree : ∀ j, 5 ≤ j → j + 2 ≤ bytes.length → bytes'[j]? = bytes[j]?) :
    scanAll bytes' sid = scanAll bytes sid := by
  rw [scanAll, scanAll, hlen]
  refine scan_congr (fun k hk => ?_) false
  obtain ⟨_, hhi⟩ := (inScan_iff hmin k).mpr hk
  refine verdictAt_congr sid hlen hhi fun m hm => ?_
  rw [byteAt, byteAt, List.getD, List.getD, hagree (5 + k + m) (by omega) (by omega)]

end Sys2Proof.Machine
end

section
/-! Proofs of the statements on DECODE (42_decode.md). -/

namespace Sys2Proof.Machine

/-- Settles O35: the length checks are the buffer operand's, and a finished scan has one of three outcomes. -/
theorem decodeLengthChecks : Obligations.DecodeLengthChecks := by
  unfold Obligations.DecodeLengthChecks
  intro s
  refine ⟨withBuffer_tooLong 15 s _, fun hl => withBuffer_tooShort 15 s _ (by omega) hl, fun hmin hmax t h => ?_⟩
  rcases execDecode_cases s with ⟨hl, _⟩ | ⟨hl, _⟩ | ⟨_, _, _, e⟩ | ⟨bytes, _, _, _, e⟩
  · omega
  · omega
  · rw [e] at h
    cases h
  · rw [e] at h
    cases h
    exact s.finishDecode_statusCode _ _

/-- Settles O36: the check is the buffer operand's. -/
theorem decodeUnwrittenFaults : Obligations.DecodeUnwrittenFaults := by
  unfold Obligations.DecodeUnwrittenFaults
  exact fun s hmin hmax hu => withBuffer_unwritten 15 s _ hmax hmin hu

/-- Settles O37: `scanAll_eq_found` is where the scan ends. -/
theorem decodeReturnsTheHighestReply : Obligations.DecodeReturnsTheHighestReply := by
  unfold Obligations.DecodeReturnsTheHighestReply
  intro s bytes i hi lo hb hmin hmax hin hreply habove
  rw [exec, execDecode, execDecodeWith_holds _ hb hmin hmax, scanAll_eq_found hmin hin hreply habove,
    State.finishDecode, signHint_eq, packHalf]

/-- Settles O38, by O37: the failed candidate at j is no reply either, so none stands above i. -/
theorem scanContinuesPastCrcMismatch : Obligations.ScanContinuesPastCrcMismatch := by
  unfold Obligations.ScanContinuesPastCrcMismatch
  intro s bytes i j hi lo hb hmin hmax hin hinj _ hreply hfail hothers
  refine decodeReturnsTheHighestReply s bytes i hi lo hb hmin hmax hin hreply fun k hik hink => ?_
  by_cases hkj : k = j
  · subst hkj
    exact hfail.not_replyAt hink
  · exact hothers k hik hkj hink

/-- Settles O39: the scan is exhausted, and its flag says whether a candidate failed its CRC. -/
theorem decodeWithoutReplyFails : Obligations.DecodeWithoutReplyFails := by
  unfold Obligations.DecodeWithoutReplyFails
  intro s bytes hb hmin hmax hnone
  obtain ⟨crcFail, hscan, hcrc⟩ := scanAll_exhausted hmin hnone
  have hexec (distinct : Bool) : execDecodeWith distinct s =
      .next (s.setStatus (if distinct && crcFail then .checksumMismatch else .notFound)) := by
    rw [execDecodeWith_holds _ hb hmin hmax, hscan, State.finishDecode]
  refine ⟨hexec false, fun hfail => ?_, fun hfail => ?_, rfl⟩
  · rw [hexec, hcrc.mpr hfail]
    rfl
  · have hclean : crcFail = false := by
      rw [Bool.eq_false_iff, Ne, hcrc]
      exact fun ⟨i, hin, hf⟩ => hfail i hin hf
    rw [hexec, hclean]
    rfl

/-- Settles O40: below 15 both DECODEs end with MALFORMED_FRAME, from 15 on with the same scan result (`scanAll_congr`). -/
theorem decodeReadsOnlyTheScannedBytes : Obligations.DecodeReadsOnlyTheScannedBytes := by
  unfold Obligations.DecodeReadsOnlyTheScannedBytes
  intro s s' bytes bytes' hb hb' hbuf hsid hmax hagree
  by_cases hshort : s.bufLen.toNat < 15
  · exact ⟨_, _, withBuffer_tooShort 15 s _ hmax hshort,
      withBuffer_tooShort 15 s' _ (hbuf ▸ hmax) (hbuf ▸ hshort), rfl, nofun⟩
  · have hlen : bytes.length = s.bufLen.toNat := hb.left
    have hlen' : bytes'.length = bytes.length := by rw [hb'.left, hbuf, hlen]
    have hscan := scanAll_congr s'.slaveId hlen' (by omega) hagree
    have hs' := execDecodeWith_holds Config.crcMismatchDistinct hb' (by omega) (by omega)
    rw [hscan, hsid] at hs'
    exact ⟨_, _, execDecodeWith_holds _ hb (by omega) (by omega), hs', State.finishDecode_outcome_congr s s' _ _⟩

end Sys2Proof.Machine
end

section
/-! STATUS.CODE (60_exceptions.md R96 to R98): what a command, a CMD write and any other event can do to it, and which
operation ends with which code. -/

namespace Sys2Proof.Machine

/-! ### Who writes the code, and what else then changes -/

/-- A command ends with a code it can raise (R96). -/
theorem exec_raisedBy {i : Instr} {s t : State} {c : StatusCode} (h : exec i s = .next t) (hc : t.statusCode = c) :
    c.RaisedBy i := by
  subst hc
  rcases exec_next_cases h with
    ⟨_, _, hraised, rfl⟩ | ⟨_, _, _, rfl⟩ | ⟨_, _, _, rfl⟩ | ⟨_, _, rfl⟩ | ⟨_, _, _, _, _, _, rfl⟩
  · exact hraised
  all_goals trivial

/-- A command that ends with a code other than OK has changed nothing else (R97). -/
theorem exec_eq_setStatus {i : Instr} {s t : State} (h : exec i s = .next t) (hok : t.statusCode ≠ .ok) :
    t = s.setStatus t.statusCode := by
  rcases exec_next_cases h with
    ⟨_, _, _, rfl⟩ | ⟨_, _, _, rfl⟩ | ⟨_, _, _, rfl⟩ | ⟨_, _, rfl⟩ | ⟨_, _, _, _, _, _, rfl⟩
  · rfl
  all_goals exact absurd rfl hok

/-- A CMD write never leaves NONE, and with a code other than OK it has changed nothing else (R97). -/
theorem runCommand_statusCode {v : Word} {s t : State} (h : runCommand v s = .next t) :
    t.statusCode ≠ .noCommand ∧ (t.statusCode ≠ .ok → t = s.setStatus t.statusCode) := by
  rcases runCommand_next_cases h with ⟨i, _, hx⟩ | rfl
  · exact ⟨fun hnone => exec_raisedBy hx hnone, exec_eq_setStatus hx⟩
  · exact ⟨nofun, fun _ => rfl⟩

/-- Only reset and a CMD write touch STATUS.CODE (R97, R107). -/
theorem step_statusCode {s t : State} {e : HostEvent} {rest : List HostEvent} (hp : s.pending = e :: rest)
    (h : step s = .next t) (hreset : e ≠ .reset) (hw : ∀ v, e ≠ .write 0x000#12 4 v) :
    t.statusCode = s.statusCode := by
  rcases step_cases hp h with
    ⟨_, _, _, rfl⟩ | ⟨v, hv, _⟩ | ⟨_, _, _, _, _, _, rfl⟩ | ⟨_, _, _, _, rfl⟩ | ⟨_, _, _, _, _, rfl⟩ | ⟨he, _⟩
  · rfl
  · exact absurd hv (hw v)
  · rfl
  · exact State.writeReg_statusCode _ _ _
  · rfl
  · exact absurd he hreset

/-! ### Which check raises which code -/

/-- A finished scan raises neither length code (R92, R94). -/
theorem State.finishDecode_not_lengthCode (s : State) (distinct : Bool) (r : ScanResult) :
    (s.finishDecode distinct r).statusCode ≠ .lenError ∧ (s.finishDecode distinct r).statusCode ≠ .malformedFrame := by
  rcases s.finishDecode_statusCode distinct r with e | e | e <;> simp [e]

/-- The buffer operand's two length checks raise their codes, and nothing else it runs does (R71, R73, R87, R98). -/
theorem withBuffer_statusCode {minLen : Nat} {s t : State} {k : List Byte → State}
    (hk : ∀ bytes, (k bytes).statusCode ≠ .lenError ∧ (k bytes).statusCode ≠ .malformedFrame)
    (h : withBuffer minLen s k = .next t) :
    (t.statusCode = .lenError ↔ 300 < s.bufLen.toNat) ∧
    (t.statusCode = .malformedFrame ↔ s.bufLen.toNat ≤ 300 ∧ s.bufLen.toNat < minLen) := by
  rcases withBuffer_cases minLen s k with ⟨hl, e⟩ | ⟨hl, hm, e⟩ | ⟨_, _, _, e⟩ | ⟨bytes, hl, hm, _, e⟩ <;>
    rw [e] at h <;> cases h
  · simp [hl]
  · simp [hl, hm]
  · simp [hk bytes, hl, hm]

/-- LEN_ERROR is the answer of the three commands over BUF to a BUF_LEN above 300 (R71, R73, R87). -/
theorem exec_lenError_iff {i : Instr} {s t : State} (h : exec i s = .next t) :
    t.statusCode = .lenError ↔ i ≠ .encode ∧ 300 < s.bufLen.toNat := by
  cases i with
  | crc16 => simpa using (withBuffer_statusCode (by simp) h).left
  | v5sum => simpa using (withBuffer_statusCode (by simp) h).left
  | encode => rcases execEncode_cases s with ⟨_, e⟩ | ⟨_, e⟩ <;> rw [e] at h <;> cases h <;> simp
  | decode => simpa using (withBuffer_statusCode (fun _ => State.finishDecode_not_lengthCode ..) h).left

/-- MALFORMED_FRAME is the answer of DECODE to a BUF_LEN below 15 (R87). -/
theorem exec_malformedFrame_iff {i : Instr} {s t : State} (h : exec i s = .next t) :
    t.statusCode = .malformedFrame ↔ i = .decode ∧ s.bufLen.toNat < 15 := by
  have hdecode (h : exec .decode s = .next t) : t.statusCode = .malformedFrame ↔ s.bufLen.toNat < 15 :=
    (withBuffer_statusCode (fun _ => State.finishDecode_not_lengthCode ..) h).right.trans
      ⟨And.right, fun hm => ⟨by omega, hm⟩⟩
  constructor
  · intro hc
    obtain rfl : i = .decode := exec_raisedBy h hc
    exact ⟨rfl, (hdecode h).mp hc⟩
  · rintro ⟨rfl, hm⟩
    exact (hdecode h).mpr hm

/-- CONFIG_UNSET is the answer of ENCODE to SERIAL_VALID = 0 (R79). -/
theorem exec_configUnset_iff {i : Instr} {s t : State} (h : exec i s = .next t) :
    t.statusCode = .configUnset ↔ i = .encode ∧ s.serialValid = false := by
  constructor
  · intro hc
    obtain rfl : i = .encode := exec_raisedBy h hc
    rcases execEncode_cases s with ⟨hv, _⟩ | ⟨_, e⟩
    · exact ⟨rfl, hv⟩
    · rw [e] at h
      cases h
      cases hc
  · rintro ⟨rfl, hv⟩
    rw [execEncode_unset hv] at h
    cases h
    rfl

/-! ### The order of checks, in its own terms (R98) -/

/-- ENCODE's word is 3 (R61). -/
theorem encodeCommand_toNat_eq_three (i : Instr) : (encodeCommand i).toNat = 3 ↔ i = .encode := by
  cases i <;> decide

/-- DECODE's word is 4 (R61). -/
theorem encodeCommand_toNat_eq_four (i : Instr) : (encodeCommand i).toNat = 4 ↔ i = .decode := by
  cases i <;> decide

/-- The words the decoder rejects, as numbers: all but 1 to 4 (R61 to R63). -/
theorem toNat_of_decodeCommand_error {v : Word} {e : DecodeError} (hd : decodeCommand v = .error e) :
    256 ≤ v.toNat ∨ v.toNat = 0 ∨ 5 ≤ v.toNat := by
  by_contra hlegal
  have hv : v = encodeCommand .crc16 ∨ v = encodeCommand .v5sum ∨ v = encodeCommand .encode ∨
      v = encodeCommand .decode := by
    simp only [encodeCommand, opcodeOf, BitVec.reduceAppend]
    bv_omega
  rcases hv with hv | hv | hv | hv <;> rw [(decodeCommand_eq_ok v _).mpr hv] at hd <;> cases hd

/-- R98's search of BUF[0, BUF_LEN) is the UnwrittenRead check (R35). -/
theorem State.any_not_written_iff (s : State) :
    (List.range s.bufLen.toNat).any (fun j => !s.written j) = true ↔ s.Unwritten := by
  simp [State.Unwritten]

/-- The length check of the three commands over BUF comes first (R98). -/
theorem exec_tooLong {i : Instr} {s : State} (hi : i ≠ .encode) (hl : 300 < s.bufLen.toNat) :
    exec i s = .next (s.setStatus .lenError) := by
  cases i with
  | encode => exact absurd rfl hi
  | _ => exact withBuffer_tooLong _ s _ hl

/-- Their UnwrittenRead check comes after the checks of the length (R98). -/
theorem exec_unwritten {i : Instr} {s : State} (hl : ¬ (i ≠ .encode ∧ 300 < s.bufLen.toNat))
    (hm : ¬ (i = .decode ∧ s.bufLen.toNat < 15)) (hi : i ≠ .encode) (hu : s.Unwritten) :
    exec i s = .fault .unwrittenRead := by
  have hmax : s.bufLen.toNat ≤ 300 := Nat.not_lt.mp fun h => hl ⟨hi, h⟩
  cases i with
  | encode => exact absurd rfl hi
  | decode => exact withBuffer_unwritten 15 s _ hmax (Nat.not_lt.mp fun h => hm ⟨rfl, h⟩) hu
  | _ => exact withBuffer_unwritten 0 s _ hmax (Nat.zero_le _) hu

/-- A command that no check stops ends with its own outcome (R98). -/
theorem exec_of_checks_pass {i : Instr} {s : State} (hl : ¬ (i ≠ .encode ∧ 300 < s.bufLen.toNat))
    (hm : ¬ (i = .decode ∧ s.bufLen.toNat < 15)) (hv : ¬ (i = .encode ∧ s.serialValid = false))
    (hu : ¬ (i ≠ .encode ∧ s.Unwritten)) :
    ∃ t, exec i s = .next t ∧
      (t.statusCode = .ok ∨ (i = .decode ∧ (t.statusCode = .notFound ∨ t.statusCode = .checksumMismatch))) := by
  cases hx : exec i s with
  | next t =>
    refine ⟨t, rfl, ?_⟩
    cases hc : t.statusCode with
    | ok => exact .inl rfl
    | malformedFrame => exact absurd ((exec_malformedFrame_iff hx).mp hc) hm
    | checksumMismatch =>
      obtain ⟨hi, _⟩ := exec_raisedBy hx hc
      exact .inr ⟨hi, .inr rfl⟩
    | notFound => exact .inr ⟨exec_raisedBy hx hc, .inl rfl⟩
    | lenError => exact absurd ((exec_lenError_iff hx).mp hc) hl
    | configUnset => exact absurd ((exec_configUnset_iff hx).mp hc) hv
    | illegalCmd => exact (exec_raisedBy hx hc).elim
    | noCommand => exact (exec_raisedBy hx hc).elim
  | fault f =>
    obtain ⟨hword, _, hunwritten⟩ := (commandFaults_encodeCommand i s f).mpr hx
    refine absurd ⟨?_, hunwritten⟩ hu
    rintro rfl
    simp [encodeCommand, opcodeOf] at hword
  | refused r => exact absurd hx (exec_not_refused i s r)

end Sys2Proof.Machine
end

section
/-! Proofs of the statements on STATUS.CODE and the order of checks (60_exceptions.md). -/

namespace Sys2Proof.Machine

/-- Settles O22: the CMD write is `runCommand_statusCode`, every other event `step_statusCode`. -/
theorem statusIsWrittenByCommandsOnly : Obligations.StatusIsWrittenByCommandsOnly := by
  unfold Obligations.StatusIsWrittenByCommandsOnly
  refine ⟨fun s t v rest hp h => ?_, fun s t e rest => step_statusCode⟩
  rw [step_write hp rfl, memWrite_cmd] at h
  exact runCommand_statusCode h

/-- Settles O23: `exec_raisedBy` says what a command can raise, and one equivalence for each of the three codes when
it does. -/
theorem statusCodesAndTheirRaisers : Obligations.StatusCodesAndTheirRaisers := by
  unfold Obligations.StatusCodesAndTheirRaisers
  refine ⟨by decide, fun i s t h => ?_⟩
  exact ⟨exec_raisedBy h rfl, exec_lenError_iff h, exec_malformedFrame_iff h, exec_configUnset_iff h⟩

/-- Settles O25: the decoder's rejection comes first (`runCommand_cases`), then the checks of the command, one lemma for
each; `exec_of_checks_pass` is the command that none of them stops. -/
theorem orderOfChecks : Obligations.OrderOfChecks := by
  unfold Obligations.OrderOfChecks
  intro s v rest hp
  rw [step_write hp rfl, memWrite_cmd]
  rcases runCommand_cases v { s with pending := rest } with ⟨i, hd, e⟩ | ⟨_, hd, e⟩ <;> rw [e]
  · obtain rfl := (decodeCommand_eq_ok v i).mp hd
    rw [if_neg (by cases i <;> decide)]
    simp only [ne_eq, encodeCommand_toNat_eq_three, encodeCommand_toNat_eq_four]
    split_ifs with hl hm hv hu
    · exact exec_tooLong hl.left hl.right
    · obtain ⟨rfl, hshort⟩ := hm
      exact withBuffer_tooShort 15 _ _ (hshort.le.trans (by decide)) hshort
    · obtain ⟨rfl, hunset⟩ := hv
      exact execEncode_unset hunset
    · rw [s.any_not_written_iff] at hu
      exact exec_unwritten hl hm hu.left hu.right
    · rw [s.any_not_written_iff] at hu
      exact exec_of_checks_pass hl hm hv hu
  · rw [if_pos (toNat_of_decodeCommand_error hd)]
    rfl

end Sys2Proof.Machine
end

section
/-! Proofs of the statements on the reset input (70_reset_and_hazards.md). -/

namespace Sys2Proof.Machine

/-- The reset input never stops the model (R107). -/
theorem step_reset {s : State} {rest : List HostEvent} (hp : s.pending = .reset :: rest) :
    step s = .next (State.applyReset { s with pending := rest }) :=
  step_cons hp

/-- Settles O49: the step is `State.applyReset` (`step_reset`), whose registers hold the reset values (`resetValues`)
and whose BUF is reset's, with no byte written (`resetBufferInvariant`). -/
theorem resetInputFromAnyState : Obligations.ResetInputFromAnyState := by
  unfold Obligations.ResetInputFromAnyState
  intro s rest hp
  obtain ⟨hid, hseq, hvalid, haddr, hcount, hlen, -, hresult, hsigned, hcrc, hsum, hreq, -⟩ := resetValues
  obtain ⟨-, hunwritten⟩ := resetBufferInvariant
  have hstatus : State.reset.statusCode = .noCommand := rfl
  exact ⟨_, step_reset hp, hid, hseq, hvalid, haddr, hcount, hlen, hstatus, hresult, hsigned, hcrc, hsum, hreq,
    hunwritten, rfl⟩

end Sys2Proof.Machine
end
